-- ==== Sys2Proof/Config.lean ====
section
/-! DEFINITION. The parameters of the machine, each at the value the spec fixes (`00_scope.md` R6).
The spec leaves no value undefined after an instruction, so there is no free value here. The one parameter
the spec leaves OPEN, the width of offered integers (R7, D18), needs no value: offered integers are `Int`. -/

namespace Sys2Proof.Config

/-- `WMIN` of R6. -/
abbrev wordMin : Int := -9999

/-- `WMAX` of R6. -/
abbrev wordMax : Int := 9999

/-- `MEMLEN` of R6: the number of memory cells. -/
abbrev memLen : Nat := 100

/-- `RADIX` of R6: a word is its operation code times the radix plus its operand. -/
abbrev radix : Int := 100

/-- `SENTINEL` of R6: the integer that ends program loading and is never stored. -/
abbrev sentinel : Int := -99999

end Sys2Proof.Config
end

