-- ==== Sys2Proof/Word.lean ====
section
/-! DEFINITION. The Word (`00_scope.md` R8), the Word Validator (R9, R100) and the truncating division (R10).
The machine has no bits: a Word is an integer in range, and an integer out of range is no Word
(`10_state.md` R44, `91_not_in_source.md` N29). -/

namespace Sys2Proof

/-- The Word Validator `inRange(v)` of R9 and R100. -/
def inRange (v : Int) : Bool := decide (Config.wordMin ≤ v) && decide (v ≤ Config.wordMax)

theorem inRange_iff {v : Int} : inRange v = true ↔ -9999 ≤ v ∧ v ≤ 9999 := by
  simp [inRange]

/-- A Word (R8): "a signed integer value constrained to [-9999, 9999]". -/
structure Word where
  val : Int
  ok : inRange val = true
deriving DecidableEq, Repr

/-- Two Words of one value are one Word. -/
theorem Word.eq_of_val {a b : Word} (h : a.val = b.val) : a = b := by
  cases a; cases b; cases h; rfl

theorem Word.bounds (w : Word) : -9999 ≤ w.val ∧ w.val ≤ 9999 := inRange_iff.mp w.ok

/-- The Word 0: what a cell nothing has written reads as (`10_state.md` R41). -/
def Word.zero : Word := ⟨0, by decide⟩

/-- The Word of an integer that passes the validator; none for one that does not. -/
def Word.ofInt? (v : Int) : Option Word := if h : inRange v = true then some ⟨v, h⟩ else none

/-- `tdiv` of R10: the quotient truncated toward zero. -/
abbrev tdiv (a b : Int) : Int := Int.tdiv a b

/-- `tmod` of R10: the remainder that goes with `tdiv`. -/
abbrev tmod (a b : Int) : Int := Int.tmod a b

end Sys2Proof
end

