-- ==== Sys2Proof/Syntax.lean ====
section
/-! DEFINITION. The twelve instructions, one constructor for each row of `spec/opcode_table.json`
(`30_encoding.md` R84). The argument is the operand, the two low decimal digits of the word (R81), as an
integer; HALT ignores its operand (R89) but keeps it, since 4377 and 4300 are two words. -/

namespace Sys2Proof

inductive Instr where
  /-- READ, operation code 10: the operand is a data address written (`41_io.md` R121). -/
  | read (a : Int)
  /-- WRITE, operation code 11: the operand is a data address read (`41_io.md` R124). -/
  | write (a : Int)
  /-- LOAD, operation code 20: the operand is a data address read (`42_load_store.md` R131). -/
  | load (a : Int)
  /-- STORE, operation code 21: the operand is a data address written (`42_load_store.md` R132). -/
  | store (a : Int)
  /-- ADD, operation code 30: the operand is a data address read (`43_arithmetic.md` R148). -/
  | add (a : Int)
  /-- SUBTRACT, operation code 31: the operand is a data address read (`43_arithmetic.md` R149). -/
  | subtract (a : Int)
  /-- DIVIDE, operation code 32: the operand is a data address read (`43_arithmetic.md` R150). -/
  | divide (a : Int)
  /-- MULTIPLY, operation code 33: the operand is a data address read (`43_arithmetic.md` R151). -/
  | multiply (a : Int)
  /-- BRANCH, operation code 40: the operand is the target (`44_control.md` R160). -/
  | branch (a : Int)
  /-- BRANCHNEG, operation code 41: the operand is the target (`44_control.md` R161). -/
  | branchneg (a : Int)
  /-- BRANCHZERO, operation code 42: the operand is the target (`44_control.md` R162). -/
  | branchzero (a : Int)
  /-- HALT, operation code 43: the operand is ignored (`44_control.md` R165, `30_encoding.md` R89). -/
  | halt (x : Int)
deriving DecidableEq, Repr

end Sys2Proof
end

