-- ==== Sys2Proof/WellFormed.lean ====
section
/-! DEFINITION. What makes an instruction well formed: its operand is an integer 0 to 99
(`30_encoding.md` R81), so that it has a word. The operation code is one of the twelve by construction. -/

namespace Sys2Proof

/-- The operand of an instruction (R81). -/
def Instr.operand : Instr → Int
  | .read a => a
  | .write a => a
  | .load a => a
  | .store a => a
  | .add a => a
  | .subtract a => a
  | .divide a => a
  | .multiply a => a
  | .branch a => a
  | .branchneg a => a
  | .branchzero a => a
  | .halt x => x

/-- The check on an operand: the two decimal digits `d1 d0` of R81 hold 0 to 99. -/
def operandOk (a : Int) : Bool := decide (0 ≤ a) && decide (a < Config.radix)

/-- An instruction is well formed when its operand has two decimal digits (R81, R93). -/
def Instr.wellFormed (i : Instr) : Bool := operandOk i.operand

theorem operandOk_iff {a : Int} : operandOk a = true ↔ 0 ≤ a ∧ a ≤ 99 := by
  simp only [operandOk, Config.radix, Bool.and_eq_true, decide_eq_true_eq]; omega

end Sys2Proof
end

