-- ==== Sys2Proof/Decode.lean ====
section
/-! DEFINITION. The instruction decoder (`30_encoding.md` R82 to R90), the encoder (R93), and the 16-bit carrier
of a Word (`00_scope.md` R7, `30_encoding.md` R94), which only the host's two bit-level entry points use. -/

namespace Sys2Proof

/-! ## The two fields of a word (R82) -/

theorem tdiv_radix_bounds (w : Word) :
    -99 ≤ tdiv w.val Config.radix ∧ tdiv w.val Config.radix ≤ 99 := by
  have h := w.bounds
  have h1 : (Int.tdiv w.val 100).natAbs = w.val.natAbs / 100 := Int.natAbs_tdiv w.val 100
  change -99 ≤ Int.tdiv w.val 100 ∧ Int.tdiv w.val 100 ≤ 99
  omega

theorem tmod_radix_bounds (w : Word) :
    -99 ≤ tmod w.val Config.radix ∧ tmod w.val Config.radix ≤ 99 := by
  have h2 := Int.tmod_lt_of_pos w.val (b := 100) (by decide)
  have h3 := Int.lt_tmod_of_pos w.val (b := 100) (by decide)
  change -99 ≤ Int.tmod w.val 100 ∧ Int.tmod w.val 100 ≤ 99
  omega

/-- `opc = tdiv(ir, 100)` (R82, R83). -/
def opcodeField (w : Word) : Word :=
  ⟨tdiv w.val Config.radix,
    inRange_iff.mpr (by have h := tdiv_radix_bounds w; omega)⟩

/-- `opd = tmod(ir, 100)` (R82, R83). -/
def operandField (w : Word) : Word :=
  ⟨tmod w.val Config.radix,
    inRange_iff.mpr (by have h := tmod_radix_bounds w; omega)⟩

/-! ## The opcode map (R84) -/

/-- Why a decoder refuses. -/
inductive DecodeError where
  /-- The operation code is none of the twelve (R86): executing such a word raises InvalidOpcode
  (`44_control.md` R168). -/
  | undefinedOpcode (opc : Int)
  /-- The 16-bit code represents no Word (R94): no register or cell can hold it. -/
  | illegalCarrier (code : BitVec 16)
deriving DecidableEq, Repr

/-- The operation code of each instruction (R84). -/
def Instr.opcode : Instr → Int
  | .read _ => 10
  | .write _ => 11
  | .load _ => 20
  | .store _ => 21
  | .add _ => 30
  | .subtract _ => 31
  | .divide _ => 32
  | .multiply _ => 33
  | .branch _ => 40
  | .branchneg _ => 41
  | .branchzero _ => 42
  | .halt _ => 43

/-- The instruction that an operation code and an operand select (R84, `40_execution_cycle.md` R104); every
other operation code is refused by name (R86). -/
def decodeFields (opc opd : Int) : Except DecodeError Instr :=
  match opc with
  | 10 => .ok (.read opd)
  | 11 => .ok (.write opd)
  | 20 => .ok (.load opd)
  | 21 => .ok (.store opd)
  | 30 => .ok (.add opd)
  | 31 => .ok (.subtract opd)
  | 32 => .ok (.divide opd)
  | 33 => .ok (.multiply opd)
  | 40 => .ok (.branch opd)
  | 41 => .ok (.branchneg opd)
  | 42 => .ok (.branchzero opd)
  | 43 => .ok (.halt opd)
  | _ => .error (.undefinedOpcode opc)

/-- The instruction a Word stands for (R82, R84). -/
def decode (w : Word) : Except DecodeError Instr :=
  decodeFields (opcodeField w).val (operandField w).val

/-! ## The encoder (R93) -/

/-- `Encode(opcode, operand)` of R93, as a Word; only a well-formed instruction has one. -/
def encode (i : Instr) : Option Word :=
  if i.wellFormed then Word.ofInt? (Config.radix * i.opcode + i.operand) else none

/-! ## The decoder's control signals (R90) -/

/-- The operations of the arithmetic-logic unit (`43_arithmetic.md` R140). -/
inductive AluOp where
  | pass | add | sub | div | mul
deriving DecidableEq, Repr

/-- The `ic` update column of R90. Each of these happens only if the instruction raises no fatal condition. -/
inductive CounterUpdate where
  /-- `+1`. -/
  | plusOne
  /-- READ: `+1` if the input is accepted, else hold. -/
  | plusOneIfAccepted
  /-- BRANCH: `opd`. -/
  | target
  /-- BRANCHNEG: `opd` if `acc < 0`, else `+1`. -/
  | targetIfNegative
  /-- BRANCHZERO: `opd` if `acc = 0`, else `+1`. -/
  | targetIfZero
  /-- HALT and every invalid word: hold. -/
  | hold
deriving DecidableEq, Repr

/-- One row of the control table of R90. A write happens only if the instruction raises no fatal condition and,
for READ, only if the input is accepted. The `can raise` column is the four last fields. -/
structure Controls where
  checksOperand : Bool
  readsCell : Bool
  aluOp : Option AluOp
  writesAcc : Bool
  writesCell : Bool
  requestsInput : Bool
  emitsOutput : Bool
  counter : CounterUpdate
  raisesInvalidOpcode : Bool
  raisesOverflow : Bool
  raisesDivideByZero : Bool
  raisesBoundsViolation : Bool
deriving DecidableEq, Repr

/-- A row of R90 in which nothing happens: the starting point of each row below. -/
def Controls.none : Controls :=
  { checksOperand := false, readsCell := false, aluOp := Option.none, writesAcc := false, writesCell := false,
    requestsInput := false, emitsOutput := false, counter := .hold, raisesInvalidOpcode := false,
    raisesOverflow := false, raisesDivideByZero := false, raisesBoundsViolation := false }

/-- The rows of R90 for the instructions that put an ALU result into the accumulator. -/
def Controls.alu (op : AluOp) (overflow divideByZero : Bool) : Controls :=
  { Controls.none with checksOperand := true, readsCell := true, aluOp := some op, writesAcc := true,
                       counter := .plusOne, raisesOverflow := overflow, raisesDivideByZero := divideByZero,
                       raisesBoundsViolation := true }

/-- The control table of R90, one row per class; a refused word is the class INVALID. -/
def controls : Except DecodeError Instr → Controls
  | .ok (.read _) => { Controls.none with checksOperand := true, writesCell := true, requestsInput := true,
                                          counter := .plusOneIfAccepted, raisesBoundsViolation := true }
  | .ok (.write _) => { Controls.none with checksOperand := true, readsCell := true, emitsOutput := true,
                                           counter := .plusOne, raisesBoundsViolation := true }
  | .ok (.load _) => Controls.alu .pass false false
  | .ok (.store _) => { Controls.none with checksOperand := true, writesCell := true, counter := .plusOne,
                                           raisesBoundsViolation := true }
  | .ok (.add _) => Controls.alu .add true false
  | .ok (.subtract _) => Controls.alu .sub true false
  | .ok (.divide _) => Controls.alu .div false true
  | .ok (.multiply _) => Controls.alu .mul true false
  | .ok (.branch _) => { Controls.none with counter := .target }
  | .ok (.branchneg _) => { Controls.none with counter := .targetIfNegative }
  | .ok (.branchzero _) => { Controls.none with counter := .targetIfZero }
  | .ok (.halt _) => Controls.none
  | .error _ => { Controls.none with raisesInvalidOpcode := true }

/-- What the decoder sub-block yields (R90). -/
structure DecoderOutput where
  opc : Word
  opd : Word
  selected : Except DecodeError Instr
  controls : Controls

/-- The decoder sub-block: a pure function of the instruction register (R90). -/
def decoder (ir : Word) : DecoderOutput :=
  { opc := opcodeField ir, opd := operandField ir, selected := decode ir, controls := controls (decode ir) }

/-! ## The 16-bit carrier (R7, R94) -/

/-- A Word on its 16-bit two's complement carrier. -/
def Word.toCarrier (w : Word) : BitVec 16 := BitVec.ofInt 16 w.val

/-- The Word a 16-bit code represents; the codes 0x2710 to 0xD8F0 represent none (R94). -/
def Word.ofCarrier? (c : BitVec 16) : Option Word := Word.ofInt? c.toInt

/-- The decoder on a carrier code: total, refusing by name. -/
def decodeCarrier (c : BitVec 16) : Except DecodeError Instr :=
  match Word.ofCarrier? c with
  | some w => decode w
  | none => .error (.illegalCarrier c)

/-- The host's question to the decoder (log 14). An instruction is one Word (R80), so its bits are the 16 low
bits of `w` whatever the number of bits the table gives the row. -/
def decodeTableWord (_nbits w : Nat) : Option Instr :=
  match decodeCarrier (BitVec.ofNat 16 w) with
  | .ok i => some i
  | .error _ => none

end Sys2Proof
end

