-- ==== Sys2Proof/Machine/State.lean ====
section
/-! DEFINITION. The complete state of the core (`10_state.md` R20), the environment's two queues beside it
(R37 to R39), the state after reset (R40), and the reasons a step can stop. -/

namespace Sys2Proof.Machine

/-- The lifecycle phase (R34): in `load` the loader may write memory and the engine takes no step; in `exec` the
engine owns memory and registers. -/
inductive Phase where
  | load
  | exec
deriving DecidableEq, Repr

/-- Why a run ended (R27, `60_exceptions.md` R181): the normal halt or one of the four fatal conditions. -/
inductive HaltReason where
  /-- HALT was executed. -/
  | normal
  /-- The operation code is none of the twelve. -/
  | invalidOpcode
  /-- An exact result of ADD, SUBTRACT or MULTIPLY is no Word. -/
  | overflow
  /-- The divisor of DIVIDE is 0. -/
  | divideByZero
  /-- An address outside 0 to 99 was about to be used, or a 101st program word was offered. -/
  | boundsViolation
deriving DecidableEq, Repr

/-- The execution status (R27): "a two-state flag — *Running* or *Halted(reason)*". -/
inductive Status where
  | running
  | halted (r : HaltReason)
deriving DecidableEq, Repr

/-- Memory `M` (R21): the cells that differ from 0, by rising address. The unit is the Word, since the machine has
no bytes (`20_memory.md` R57; log 1). A cell that is not listed reads 0 (R41). `Machine/Ops.lean` has the
operations and the canonical form. -/
structure Memory where
  cells : List (Nat × Word)
deriving DecidableEq, Repr

/-- The state tuple of R20, then the two queues of the environment, which the step reads and writes (log 3). -/
structure State where
  /-- `M` (R21). -/
  mem : Memory
  /-- The accumulator (R22). -/
  acc : Word
  /-- The instruction counter (R23), an integer, as `ic + 1` "is computed as an integer" (log 2). -/
  ic : Int
  /-- The instruction register (R24). -/
  ir : Word
  /-- The operation code register (R25). -/
  opc : Word
  /-- The operand register (R26). -/
  opd : Word
  /-- The execution status (R27). -/
  status : Status
  /-- The lifecycle phase (R34). -/
  phase : Phase
  /-- The load counter (R35). -/
  lc : Nat
  /-- `In` (R38): the integers offered and not yet taken, oldest first. The MODEL's own field. -/
  input : List Int
  /-- `Out` (R39): the (address, value) pairs emitted so far, oldest first. The MODEL's own field. -/
  output : List (Int × Word)
deriving DecidableEq, Repr

/-- The state after reset (R40, `70_reset_and_hazards.md` R210), with nothing offered and nothing emitted. -/
def State.reset : State :=
  { mem := ⟨[]⟩
    acc := Word.zero
    ic := 0
    ir := Word.zero
    opc := Word.zero
    opd := Word.zero
    status := .running
    phase := .load
    lc := 0
    input := []
    output := [] }

/-- What stops a step without a next state. -/
inductive Fault where
  /-- Raised by `step` alone, in a state whose status is `halted r` already: there "no step is enabled"
  (`40_execution_cycle.md` R109). Safe: the machine does nothing there either (log 6). -/
  | halted (r : HaltReason)
deriving DecidableEq, Repr

/-- What the model refuses. -/
inductive Refusal where
  /-- Raised by an arm of `exec` whose instruction has no meaning yet; no arm of this model raises it. Safe. -/
  | notModelled (mnemonic : String)
deriving DecidableEq, Repr

end Sys2Proof.Machine
end

