-- ==== Sys2Proof/Machine/Ops.lean ====
section
/-! DEFINITION. The named operations that every meaning is written over: the address decoder and bounds checker
(`20_memory.md` R52, R53), the memory accesses (`00_scope.md` R12), the counter (R14), the environment (R15), the
entry of a halt (R13, `60_exceptions.md` R184) and the fetch (`40_execution_cycle.md` R102). -/

namespace Sys2Proof.Machine

/-! ## The bounds checker and the memory -/

/-- `inBounds(a)` of `00_scope.md` R9 and `20_memory.md` R52: the legal addresses are 0 to 99 inclusive. -/
def inBounds (a : Int) : Bool := decide (0 ≤ a) && decide (a < Config.memLen)

/-- The value of cell `a` in a list of cells; a cell that is not listed holds 0 (`10_state.md` R41). -/
def lookupCell (a : Nat) : List (Nat × Word) → Word
  | [] => Word.zero
  | (b, w) :: rest => if a = b then w else lookupCell a rest

/-- The list with cell `a` holding `v`. The addresses stay rising, and 0 is never listed. -/
def putCell (a : Nat) (v : Word) : List (Nat × Word) → List (Nat × Word)
  | [] => if v = Word.zero then [] else [(a, v)]
  | (b, w) :: rest =>
    if a < b then (if v = Word.zero then (b, w) :: rest else (a, v) :: (b, w) :: rest)
    else if a = b then (if v = Word.zero then rest else (a, v) :: rest)
    else (b, w) :: putCell a v rest

/-- The canonical form, from address `lo` on: addresses strictly rising and below 100, no cell listed as 0. -/
def cellsCanonical (lo : Nat) : List (Nat × Word) → Bool
  | [] => true
  | (a, v) :: rest =>
    decide (lo ≤ a) && decide (a < Config.memLen) && decide (v ≠ Word.zero) && cellsCanonical (a + 1) rest

/-- The canonical form of a memory: equal memories are equal data. -/
def Memory.wf (m : Memory) : Bool := cellsCanonical 0 m.cells

/-- `MemRead(a, 1)` of R12 behind the bounds checker: no address outside 0 to 99 has a value
(`20_memory.md` R53, R56). -/
def Memory.read? (m : Memory) (a : Int) : Option Word :=
  if inBounds a then some (lookupCell a.toNat m.cells) else none

/-- `MemWrite(a, 1, v)` of R12 behind the bounds checker. -/
def Memory.write? (m : Memory) (a : Int) (v : Word) : Option Memory :=
  if inBounds a then some ⟨putCell a.toNat v m.cells⟩ else none

/-! ## Registers -/

def State.setMem (m : Memory) (s : State) : State := { s with mem := m }

def State.setAcc (v : Word) (s : State) : State := { s with acc := v }

/-- The outcome `advance` of `40_execution_cycle.md` R105: `ic + 1` as an integer, without wrap
(`10_state.md` R23). -/
def State.advance (s : State) : State := { s with ic := s.ic + 1 }

/-- The outcome `jump` of R105: the target is absolute and is not checked here (`44_control.md` R163). -/
def State.jumpTo (a : Int) (s : State) : State := { s with ic := a }

/-- `ir`, `opc` and `opd` are written together (`10_state.md` R31). -/
def State.latch (w : Word) (s : State) : State :=
  { s with ir := w, opc := opcodeField w, opd := operandField w }

/-! ## The environment (R15) -/

/-- What `take(In)` leaves: the values after the one taken. -/
def State.setInput (rest : List Int) (s : State) : State := { s with input := rest }

/-- `emit(a, v)`. -/
def State.emit (a : Int) (v : Word) (s : State) : State := { s with output := s.output ++ [(a, v)] }

/-! ## Halting: the entry of a fatal condition, and of the normal halt

There is no return from either (`60_exceptions.md` R187): the only exit is reset, `hostReset` of
`Machine/Environment.lean`. -/

/-- `status <- Halted(r)` and nothing else (R13, R184): nothing is saved, since nothing is overwritten. -/
def State.haltWith (r : HaltReason) (s : State) : State := { s with status := .halted r }

/-! ## Fetch and decode -/

/-- Fetch (R102): the bounds check on `ic`, then the word at `ic` into `ir` and its decode into `opc`, `opd`. -/
def State.fetch (s : State) : State :=
  match s.mem.read? s.ic with
  | some w => s.latch w
  | none => s.haltWith .boundsViolation

end Sys2Proof.Machine
end

