-- ==== Sys2Proof/Machine/Alu.lean ====
section
/-! DEFINITION. The arithmetic-logic unit (`43_arithmetic.md` R140 to R147): a pure function of an operation and two
Words, computed on exact integers (R143) and validated at the end (R141). -/

namespace Sys2Proof.Machine

/-- What the unit yields (R140). -/
inductive AluResult where
  | ok (r : Word)
  | overflow
  | divideByZero
deriving DecidableEq, Repr

/-- R146: a quotient is never larger in magnitude than its dividend, so it is a Word. -/
theorem quotient_inRange (a b : Word) : inRange (tdiv a.val b.val) = true := by
  have h := a.bounds
  have h1 := Int.natAbs_tdiv_le_natAbs a.val b.val
  refine inRange_iff.mpr ?_
  change -9999 ≤ Int.tdiv a.val b.val ∧ Int.tdiv a.val b.val ≤ 9999
  omega

/-- The exact result, if the Word Validator accepts it (R141). -/
def validated (t : Int) : AluResult :=
  match Word.ofInt? t with
  | some r => .ok r
  | none => .overflow

/-- `ALU(op, a, b)` of R140: `a` is the accumulator, `b` the memory Word (R144). The rounding of `div` is the spec's
decision D8 (R145; log 9). -/
def alu (op : AluOp) (a b : Word) : AluResult :=
  match op with
  | .pass => .ok b
  | .add => validated (a.val + b.val)
  | .sub => validated (a.val - b.val)
  | .mul => validated (a.val * b.val)
  | .div => if b.val = 0 then .divideByZero else .ok ⟨tdiv a.val b.val, quotient_inRange a b⟩

end Sys2Proof.Machine
end

