-- ==== Sys2Proof/Machine/Flags.lean ====
section
/-! DEFINITION. The machine has no flags and no condition codes (`10_state.md` R28). What a conditional branch tests
are two functions of the accumulator's current value, which hold no state. -/

namespace Sys2Proof.Machine

/-- The comparator output `acc < 0` (R28): zero is not negative (`44_control.md` R161). -/
def accNegative (s : State) : Bool := decide (s.acc.val < 0)

/-- The comparator output `acc == 0` (R28). -/
def accZero (s : State) : Bool := decide (s.acc.val = 0)

end Sys2Proof.Machine
end

