-- ==== Sys2Proof/Machine/Operands.lean ====
section
/-! DEFINITION. The two uses of an operand. As a data address there is one addressing mode, absolute
(`42_load_store.md` R130), and the first action of the instruction is the bounds check (`20_memory.md` R54). As a
branch target it is absolute and unchecked (`44_control.md` R163). Each shared operation here is the Execute part of
a step (`40_execution_cycle.md` R104); the fetch that follows belongs to the step (R106). -/

namespace Sys2Proof.Machine

/-- Read the data operand `M[a]` and go on with it; a bad address raises BoundsViolation (R54). -/
def withDataRead (a : Int) (s : State) (go : Word → State) : Host.Outcome State Fault Refusal :=
  match s.mem.read? a with
  | some b => .next (go b)
  | none => .next (s.haltWith .boundsViolation)

/-- Write `v` to the data operand `M[a]` and advance; a bad address raises BoundsViolation (R54). -/
def writeCellAndAdvance (a : Int) (v : Word) (s : State) : Host.Outcome State Fault Refusal :=
  match s.mem.write? a v with
  | some m => .next (s.setMem m).advance
  | none => .next (s.haltWith .boundsViolation)

/-- What an ALU result does (`43_arithmetic.md` R140 to R142): a good one goes into the accumulator and the
instruction advances; the others end the run, with `acc` and `ic` unchanged. -/
def commitAlu (s : State) : AluResult → State
  | .ok r => (s.setAcc r).advance
  | .overflow => s.haltWith .overflow
  | .divideByZero => s.haltWith .divideByZero

/-- `acc <- ALU(op, acc, M[a])`, with the accumulator on the left (R144). -/
def accumulate (op : AluOp) (a : Int) (s : State) : Host.Outcome State Fault Refusal :=
  withDataRead a s fun b => commitAlu s (alu op s.acc b)

/-- Jump to `a` if the condition holds, else advance (`44_control.md` R160 to R162). -/
def branchWhen (condition : Bool) (a : Int) (s : State) : Host.Outcome State Fault Refusal :=
  .next (if condition then s.jumpTo a else s.advance)

end Sys2Proof.Machine
end

