-- ==== Sys2Proof/Machine/Arithmetic.lean ====
section
/-! DEFINITION. ADD, SUBTRACT, DIVIDE and MULTIPLY (`43_arithmetic.md`). -/

namespace Sys2Proof.Machine

/-- ADD (R148): `acc <- acc + M[a]`, or Overflow. -/
def execAdd (a : Int) (s : State) : Host.Outcome State Fault Refusal :=
  accumulate .add a s

/-- SUBTRACT (R149): `acc <- acc - M[a]`, or Overflow. -/
def execSubtract (a : Int) (s : State) : Host.Outcome State Fault Refusal :=
  accumulate .sub a s

/-- DIVIDE (R150): `acc <- tdiv(acc, M[a])`, or DivideByZero. -/
def execDivide (a : Int) (s : State) : Host.Outcome State Fault Refusal :=
  accumulate .div a s

/-- MULTIPLY (R151): `acc <- acc * M[a]`, or Overflow. -/
def execMultiply (a : Int) (s : State) : Host.Outcome State Fault Refusal :=
  accumulate .mul a s

end Sys2Proof.Machine
end

