-- ==== Sys2Proof/Machine/Control.lean ====
section
/-! DEFINITION. BRANCH, BRANCHNEG, BRANCHZERO and HALT (`44_control.md`). -/

namespace Sys2Proof.Machine

/-- BRANCH (R160): `ic <- a`. -/
def execBranch (a : Int) (s : State) : Host.Outcome State Fault Refusal :=
  branchWhen true a s

/-- BRANCHNEG (R161): `ic <- a` if `acc < 0`, else `ic + 1`. -/
def execBranchneg (a : Int) (s : State) : Host.Outcome State Fault Refusal :=
  branchWhen (accNegative s) a s

/-- BRANCHZERO (R162): `ic <- a` if `acc = 0`, else `ic + 1`. -/
def execBranchzero (a : Int) (s : State) : Host.Outcome State Fault Refusal :=
  branchWhen (accZero s) a s

/-- HALT (R165, R166): `status <- Halted(Normal)`; the operand is ignored (`30_encoding.md` R89). -/
def execHalt (_x : Int) (s : State) : Host.Outcome State Fault Refusal :=
  .next (s.haltWith .normal)

end Sys2Proof.Machine
end

