-- ==== Sys2Proof/Machine/InputOutput.lean ====
section
/-! DEFINITION. READ and WRITE (`41_io.md`). -/

namespace Sys2Proof.Machine

/-- READ (R121): the address is checked before input is requested (`92_eei_decisions.md` D16). With no value offered
the machine waits and nothing changes (R123; log 4). A value that is no Word is discarded and nothing else changes
(R122). A Word is stored at `M[a]`. -/
def execRead (a : Int) (s : State) : Host.Outcome State Fault Refusal :=
  if inBounds a then
    match s.input with
    | [] => .next s
    | v :: rest =>
      match Word.ofInt? v with
      | some w => writeCellAndAdvance a w (s.setInput rest)
      | none => .next (s.setInput rest)
  else .next (s.haltWith .boundsViolation)

/-- WRITE (R124): emits the pair of the address and the cell's value. -/
def execWrite (a : Int) (s : State) : Host.Outcome State Fault Refusal :=
  withDataRead a s fun v => (s.emit a v).advance

end Sys2Proof.Machine
end

