-- ==== Sys2Proof/Machine/LoadStore.lean ====
section
/-! DEFINITION. LOAD and STORE (`42_load_store.md`). -/

namespace Sys2Proof.Machine

/-- LOAD (R131): `acc <- M[a]`, by the ALU's `pass` (`43_arithmetic.md` R140). -/
def execLoad (a : Int) (s : State) : Host.Outcome State Fault Refusal :=
  accumulate .pass a s

/-- STORE (R132): `M[a] <- acc`. -/
def execStore (a : Int) (s : State) : Host.Outcome State Fault Refusal :=
  writeCellAndAdvance a s.acc s

end Sys2Proof.Machine
end

