-- ==== Sys2Proof/Machine/Cycle.lean ====
section
/-! DEFINITION. The step of the engine (`40_execution_cycle.md` R105, R106): Execute the instruction in `ir`, `opc`
and `opd`, then, if it advanced or jumped, fetch the next one. -/

namespace Sys2Proof.Machine

/-! ## When a step is enabled -/

/-- The engine's request to the input collaborator (`41_io.md` R123): a READ is the instruction to execute. -/
def inputRequested (s : State) : Bool :=
  decide (s.phase = .exec) && decide (s.status = .running) && decide (s.opc.val = 10) && inBounds s.opd.val

/-- A READ whose request nothing answers: "the step is not enabled, the state does not change" (R123). -/
def waitsForInput (s : State) : Bool := inputRequested s && s.input.isEmpty

/-- The spec's `Enabled exactly when` of R106: in every other state the spec has no step. -/
def stepEnabled (s : State) : Bool :=
  decide (s.phase = .exec) && decide (s.status = .running) && !waitsForInput s

/-! ## The step -/

/-- A READ that will not complete on this attempt: the outcome `hold` of R105 (its input is rejected), or a wait
(no input is offered, R123). No other instruction holds. -/
def holds (i : Instr) (s : State) : Bool :=
  match i with
  | .read _ =>
    match s.input with
    | [] => true
    | v :: _ => !inRange v
  | _ => false

/-- The second half of R106, on what Execute of `i` at `s` answered: the re-fetch follows the outcomes `advance` and
`jump`; nothing follows `hold` and `stop`. -/
def settle (i : Instr) (s : State) : Host.Outcome State Fault Refusal → Host.Outcome State Fault Refusal
  | .next t => .next (if t.status = .running && !holds i s then t.fetch else t)
  | .fault r => .fault r
  | .refused r => .refused r

/-- The step in the Exec phase of a running machine (R104, R106): it dispatches on `opc`, and an operation code that
is none of the twelve raises InvalidOpcode (`44_control.md` R168). -/
def stepExec (s : State) : Host.Outcome State Fault Refusal :=
  match decodeFields s.opc.val s.opd.val with
  | .ok i => settle i s (exec i s)
  | .error _ => .next (s.haltWith .invalidOpcode)

/-- One step of the engine: the spec's step where one is enabled (R106). In the two states where a running machine has
none, the Load phase (`10_state.md` R34; log 5) and a READ with nothing offered (`41_io.md` R123; log 4), the engine
waits: the host's interface has no answer "no step yet", so the answer is the same state. A halted machine is never
stepped again (R109; log 6). -/
def engineStep (s : State) : Host.Outcome State Fault Refusal :=
  match s.status with
  | .halted r => .fault (.halted r)
  | .running => if stepEnabled s then stepExec s else .next s

/-- `s` about to execute the word `w` at `ic`: the word in memory and in the registers that a fetch of it writes, and
the machine running (log 14). -/
def placeWord (w : Word) (s : State) : State :=
  let m := match s.mem.write? s.ic w with
    | some m => m
    | none => s.mem
  { (s.setMem m).latch w with phase := .exec, status := .running }

/-- `placeWord` on the 16 low bits of a host's number; a code that is no Word can stand nowhere in the machine, so
it places nothing (log 14). -/
def placeBits (w : Nat) (s : State) : State :=
  match Word.ofCarrier? (BitVec.ofNat 16 w) with
  | some word => placeWord word s
  | none => s

end Sys2Proof.Machine
end

