-- ==== Sys2Proof/Machine/Step.lean ====
section
/-! DEFINITION. The step of the machine and the host's placing of one instruction. -/

namespace Sys2Proof.Machine

/-- One step of the engine (`40_execution_cycle.md` R106). -/
def step (s : State) : Host.Outcome State Fault Refusal :=
  engineStep s

/-- The instruction of bits `w`, placed where the very next step executes it (log 14). -/
def State.withFetchWord (s : State) (_nbits w : Nat) : State :=
  placeBits w s

end Sys2Proof.Machine
end

