-- ==== Sys2Proof/Machine/Environment.lean ====
section
/-! DEFINITION. The events of the agents outside the core (`70_reset_and_hazards.md` R210 to R222): reset, the loader,
start, the input collaborator and the dumper. The output collaborator needs no event: it only receives
(`10_state.md` R39). Each event is a function on State with a defined response in every state (R222). -/

namespace Sys2Proof.Machine

/-- Reset (R210): the whole tuple of `10_state.md` R20 at its reset values and `Out` empty (R219). Values offered and
not taken stay in `In`, which is the environment's (log 13). It is the only exit from a halted state. -/
def hostReset (s : State) : State := { State.reset with input := s.input }

/-- Start (R218): accepted only in the Load phase of a running machine; the first fetch, at `ic`. -/
def start (s : State) : State :=
  if s.phase = .load ∧ s.status = .running then ({ s with phase := .exec } : State).fetch else s

/-- An in-range word from the loader (R215): stored in the next cell, or, when there is none, the loader overflow
of R217 (log 16). -/
def storeLoaded (w : Word) (s : State) : State :=
  match s.mem.write? s.lc w with
  | some m => { s.setMem m with lc := s.lc + 1 }
  | none => { s.haltWith .boundsViolation with phase := .exec }

/-- `LoadWord(v)` (R214, R215): the sentinel starts the run, an integer that is no Word is skipped, and a Word is
stored. Outside the Load phase it is refused and changes nothing (R216). -/
def loadWord (v : Int) (s : State) : State :=
  if s.phase = .load ∧ s.status = .running then
    if v = Config.sentinel then start s
    else
      match Word.ofInt? v with
      | some w => storeLoaded w s
      | none => s
  else s

/-- The input collaborator offers one integer (R38, R222); it stays in `In` until a READ takes it. -/
def offerInput (v : Int) (s : State) : State := { s with input := s.input ++ [v] }

/-- What the dumper may read (R221, `10_state.md` R49). -/
structure Dump where
  acc : Word
  ic : Int
  ir : Word
  opc : Word
  opd : Word
  reason : HaltReason
  mem : Memory
deriving DecidableEq, Repr

/-- Dump (R221): the final values of a halted machine; a read while the engine runs has no meaning (D22; log 19). -/
def dump (s : State) : Option Dump :=
  match s.status with
  | .halted r =>
    some { acc := s.acc, ic := s.ic, ir := s.ir, opc := s.opc, opd := s.opd, reason := r, mem := s.mem }
  | .running => none

/-- The dumper's read of one cell (R221). -/
def Dump.cell? (d : Dump) (a : Int) : Option Word := d.mem.read? a

/-- The launch state of R219: the memory image of the in-range words loaded, in order, from address 0, after Start. -/
def launch (image : List Int) (offered : List Int) : State :=
  start (image.foldl (fun s v => loadWord v s) { State.reset with input := offered })

end Sys2Proof.Machine
end

