-- ==== Sys2Proof/Machine/Carrier.lean ====
section
/-! DEFINITION. The carriers of the status and of addresses (`10_state.md` R48, `60_exceptions.md` R181), which no
instruction depends on. The carrier of a Word stands in `Decode.lean`. -/

namespace Sys2Proof.Machine

/-- The 3-bit code of a halt reason (R181, D6); the codes 5 to 7 are never produced. -/
def HaltReason.code : HaltReason → BitVec 3
  | .normal => 0
  | .invalidOpcode => 1
  | .overflow => 2
  | .divideByZero => 3
  | .boundsViolation => 4

/-- The `halted` bit of the status port (R27, R48). -/
def haltedBit (s : State) : Bool :=
  match s.status with
  | .halted _ => true
  | .running => false

/-- The `reason` field of the status port: it says something only while `halted` is 1. -/
def reasonField? (s : State) : Option (BitVec 3) :=
  match s.status with
  | .halted r => some r.code
  | .running => none

/-- The address decoder on the 7-bit carrier (`20_memory.md` R53): whether code `a` selects cell `k`. The codes 100 to
127 select nothing. -/
def addressSelects (a : BitVec 7) (k : Nat) : Bool := inBounds a.toNat && decide (a.toNat = k)

end Sys2Proof.Machine
end

