-- ==== Sys2Proof/Machine/Events.lean ====
section
/-! DEFINITION. Everything that can happen to the machine (`70_reset_and_hazards.md` R213, R222): the step of the engine
and the events of the agents outside it, one at a time, since there is one agent and nothing runs beside it
(`20_memory.md` R62). A Dump changes nothing (R221), so it is no event here. -/

namespace Sys2Proof.Machine

inductive Event where
  /-- The host asserts reset (R210). -/
  | reset
  /-- The loader offers an integer (R215). -/
  | loadWord (v : Int)
  /-- The start input (R218). -/
  | start
  /-- The input collaborator offers an integer (R222). -/
  | offerInput (v : Int)
  /-- The engine takes a step (`40_execution_cycle.md` R106). -/
  | engine
deriving DecidableEq, Repr

/-- The response to one event. -/
def occur (e : Event) (s : State) : Host.Outcome State Fault Refusal :=
  match e with
  | .reset => .next (hostReset s)
  | .loadWord v => .next (loadWord v s)
  | .start => .next (start s)
  | .offerInput v => .next (offerInput v s)
  | .engine => step s

/-- The state after a sequence of events; an engine step that is not enabled changes nothing. -/
def afterEvents (es : List Event) (s : State) : State :=
  es.foldl (fun s e => match occur e s with
    | .next t => t
    | .fault _ => s
    | .refused _ => s) s

/-! ## The other formulation of the cycle (`40_execution_cycle.md` R107) -/

/-- The second half of `Step'`: Execute what `fetch` brought, without a re-fetch. -/
def executeFetched (s : State) : Host.Outcome State Fault Refusal :=
  match decodeFields s.opc.val s.opd.val with
  | .ok i => exec i s
  | .error _ => .next (s.haltWith .invalidOpcode)

/-- `Step'` of R107: "Fetch; if still Running then Execute". -/
def stepFetchFirst (s : State) : Host.Outcome State Fault Refusal :=
  match s.status with
  | .halted r => .fault (.halted r)
  | .running =>
    match s.phase with
    | .load => .next s
    | .exec => if s.fetch.status = .running then executeFetched s.fetch else .next s.fetch

/-- The machine that runs by `Step'`. -/
def coreFetchFirst : Host.Core :=
  { State := State
    Fault := Fault
    Refusal := Refusal
    step := stepFetchFirst
    reset := State.reset }

end Sys2Proof.Machine
end

