-- ==== Sys2Proof/Safety.lean ====
section
/-! DEFINITION. The terms the statements use: the fetch as a relation, the tuple of the core without the
environment, and the invariant of every state the machine can reach. -/

namespace Sys2Proof.Machine

/-- What Fetch makes of `u` (`40_execution_cycle.md` R102), said field by field, without `State.fetch`: at an address
0 to 99 the registers `ir`, `opc`, `opd` take the word there and its decode, and nothing else changes; at any other
address only the status changes. -/
def Fetched (u t : State) : Prop :=
  (0 ≤ u.ic → u.ic ≤ 99 →
    ∃ w, u.mem.read? u.ic = some w ∧ t = { u with ir := w, opc := t.opc, opd := t.opd } ∧
      t.opc.val = tdiv w.val 100 ∧ t.opd.val = tmod w.val 100) ∧
  (¬(0 ≤ u.ic ∧ u.ic ≤ 99) → t = { u with status := .halted .boundsViolation })

/-- The instructions `mk a`, for `a` 0 to 99, are encoded by the hundred words from `first` on, and by no others:
one row of the opcode map (`30_encoding.md` R84). -/
def EncodedFrom (first : Int) (mk : Int → Instr) : Prop :=
  ∀ (w : Word) (a : Int), decode w = .ok (mk a) ↔ 0 ≤ a ∧ a ≤ 99 ∧ w.val = first + a

/-- An instruction at a bad data address raises BoundsViolation and nothing else happens (`20_memory.md` R54,
`00_scope.md` R13). -/
def ChecksDataAddress (mk : Int → Instr) : Prop :=
  ∀ (a : Int) (s : State), ¬(0 ≤ a ∧ a ≤ 99) →
    exec (mk a) s = .next { s with status := .halted .boundsViolation }

/-- The pattern that ADD, SUBTRACT and MULTIPLY share (`43_arithmetic.md` R141, R148, R149, R151): the exact result of
the accumulator and the cell either is a Word, and then is the new accumulator, or ends the run with Overflow and
changes nothing else. -/
def OverflowChecked (mk : Int → Instr) (op : Int → Int → Int) : Prop :=
  ∀ (a : Int) (s : State), 0 ≤ a → a ≤ 99 → ∃ b, s.mem.read? a = some b ∧
    (∀ r : Word, r.val = op s.acc.val b.val →
      exec (mk a) s = .next { s with acc := r, ic := s.ic + 1 }) ∧
    (¬(-9999 ≤ op s.acc.val b.val ∧ op s.acc.val b.val ≤ 9999) →
      exec (mk a) s = .next { s with status := .halted .overflow })

/-- Two states whose tuples (`10_state.md` R20) are the same: only `In` and `Out`, the environment's, may differ. -/
def SameTuple (s t : State) : Prop :=
  s.mem = t.mem ∧ s.acc = t.acc ∧ s.ic = t.ic ∧ s.ir = t.ir ∧ s.opc = t.opc ∧ s.opd = t.opd ∧
    s.status = t.status ∧ s.phase = t.phase ∧ s.lc = t.lc

/-- The coupling of `10_state.md` R31. -/
abbrev FieldsCoupled (s : State) : Prop :=
  s.opc.val = tdiv s.ir.val 100 ∧ s.opd.val = tmod s.ir.val 100

/-- The range of the counter (`10_state.md` R45, R46): it is 100 only after falling through address 99. -/
abbrev CounterInRange (s : State) : Prop :=
  0 ≤ s.ic ∧ s.ic ≤ 100 ∧ (s.ic = 100 → s.status = .halted .boundsViolation)

/-- At an instruction boundary of a run, `ir` holds the word at `ic` (`10_state.md` R23, R32). -/
abbrev FetchCoherent (s : State) : Prop :=
  s.phase = .exec → s.status = .running → s.mem.read? s.ic = some s.ir

/-- Before Start nothing has run: the registers hold their reset values and only the cells below `lc` have been
written (`70_reset_and_hazards.md` R215, R219). -/
abbrev LoadPhaseQuiet (s : State) : Prop :=
  s.phase = .load →
    s.status = .running ∧ s.acc = Word.zero ∧ s.ic = 0 ∧ s.ir = Word.zero ∧ s.output = [] ∧
      (∀ p ∈ s.mem.cells, p.1 < s.lc)

/-- The pairs of `Out` carry addresses 0 to 99 (`10_state.md` R39). -/
abbrev OutputAddressed (s : State) : Prop := ∀ p ∈ s.output, 0 ≤ p.1 ∧ p.1 ≤ 99

/-- The invariant of every reachable state. The word range of `10_state.md` R43 is in the type of a Word. -/
abbrev CoreInvariant (s : State) : Prop :=
  s.mem.wf = true ∧ FieldsCoupled s ∧ CounterInRange s ∧ s.lc ≤ 100 ∧ FetchCoherent s ∧ LoadPhaseQuiet s ∧
    OutputAddressed s

end Sys2Proof.Machine
end

