-- ==== Sys2Proof/Certificates/Slice0/Obligations.lean ====
section
/-! DEFINITION. The statements for the provers. Each docstring names the rules of the spec it formalises; where a
clause rests on the model's own choice or on a decision the spec marks as its own, it says so and names the entry. -/

open Sys2Proof Sys2Proof.Machine

/-! ## Encoding -/

/-- Every well-formed instruction has a word, and that word decodes to it (`30_encoding.md` section 8). -/
def Obligations.DecodeOfEncode : Prop :=
  ∀ i : Instr, i.wellFormed = true → ∃ w, encode i = some w ∧ decode w = .ok i

/-- Every word that decodes is the encoding of a well-formed instruction (`30_encoding.md` section 8). -/
def Obligations.EncodeOfDecode : Prop :=
  ∀ (w : Word) (i : Instr), decode w = .ok i → i.wellFormed = true ∧ encode i = some w

/-- The opcode map, row by row (`30_encoding.md` section 3). -/
def Obligations.DecodeMatchesOpcodeMap : Prop :=
  ∀ (w : Word) (i : Instr), decode w = .ok i ↔ ∃ a : Int, 0 ≤ a ∧ a ≤ 99 ∧
    ((i = .read a ∧ w.val = 1000 + a) ∨ (i = .write a ∧ w.val = 1100 + a) ∨
      (i = .load a ∧ w.val = 2000 + a) ∨ (i = .store a ∧ w.val = 2100 + a) ∨
      (i = .add a ∧ w.val = 3000 + a) ∨ (i = .subtract a ∧ w.val = 3100 + a) ∨
      (i = .divide a ∧ w.val = 3200 + a) ∨ (i = .multiply a ∧ w.val = 3300 + a) ∨
      (i = .branch a ∧ w.val = 4000 + a) ∨ (i = .branchneg a ∧ w.val = 4100 + a) ∨
      (i = .branchzero a ∧ w.val = 4200 + a) ∨ (i = .halt a ∧ w.val = 4300 + a))

/-- The invalid words, as intervals (`30_encoding.md` section 4). -/
def Obligations.InvalidWordsAreTheGaps : Prop :=
  ∀ w : Word, decode w = .error (.undefinedOpcode (opcodeField w).val) ↔
    (w.val ≤ 999 ∨ (1200 ≤ w.val ∧ w.val ≤ 1999) ∨ (2200 ≤ w.val ∧ w.val ≤ 2999) ∨
      (3400 ≤ w.val ∧ w.val ≤ 3999) ∨ 4400 ≤ w.val)

/-- The two fields of every word, negative ones included, by truncation toward zero (`30_encoding.md` section 2; for
negative words this is the spec's decision D9, log 9), and that no negative word is an instruction. -/
def Obligations.FieldsTruncateTowardZero : Prop :=
  ∀ w : Word,
    (opcodeField w).val = w.val.sign * ((w.val.natAbs / 100 : Nat) : Int) ∧
    (operandField w).val = w.val - 100 * (opcodeField w).val ∧
    (w.val < 0 → -99 ≤ (opcodeField w).val ∧ (opcodeField w).val ≤ 0 ∧
      -99 ≤ (operandField w).val ∧ (operandField w).val ≤ 0 ∧
      decode w = .error (.undefinedOpcode (opcodeField w).val))

/-- Words of `30_encoding.md` section 8 and `95_test_vectors.md` (section 2.2, and programs P5 and P6 of part 3), in
hexadecimal. That the host's number for an instruction is the 16-bit carrier is the model's choice, log 14, and the
carrier is the spec's decision D1. -/
def Obligations.WrittenOutWordsDecode : Prop :=
  decodeTableWord 16 0x03F1 = some (.read 9) ∧ decodeTableWord 16 0x0455 = some (.write 9) ∧
    decodeTableWord 16 0x07D9 = some (.load 9) ∧ decodeTableWord 16 0x083D = some (.store 9) ∧
    decodeTableWord 16 0x0BC2 = some (.add 10) ∧ decodeTableWord 16 0x0C26 = some (.subtract 10) ∧
    decodeTableWord 16 0x0C89 = some (.divide 9) ∧ decodeTableWord 16 0x1003 = some (.branch 99) ∧
    decodeTableWord 16 0x112F = some (.halt 99) ∧ decodeTableWord 16 0xFC0F = none ∧
    decodeTableWord 16 0x04E2 = none

/-- A Word survives its 16-bit carrier, and the codes 0x2710 to 0xD8F0 are no Word (the spec's decision D1). -/
def Obligations.CarrierHoldsExactlyTheWords : Prop :=
  (∀ w : Word, Word.ofCarrier? w.toCarrier = some w) ∧
    (∀ c : BitVec 16, Word.ofCarrier? c = none ↔ 0x2710 ≤ c.toNat ∧ c.toNat ≤ 0xD8F0)

/-! ## The two predicates -/

/-- `00_scope.md` R9. -/
def Obligations.ValidatorAndBoundsPredicates : Prop :=
  (∀ v : Int, inRange v = true ↔ -9999 ≤ v ∧ v ≤ 9999) ∧ (∀ a : Int, inBounds a = true ↔ 0 ≤ a ∧ a ≤ 99)

/-- `20_memory.md` R52: the addresses 0 to 99, 99 included, can be read and written, and no other. -/
def Obligations.LegalAddressesAre0To99 : Prop :=
  ∀ (m : Memory) (a : Int) (v : Word),
    (inBounds a = true ↔ 0 ≤ a ∧ a ≤ 99) ∧
    ((m.read? a).isSome = true ↔ 0 ≤ a ∧ a ≤ 99) ∧ ((m.write? a v).isSome = true ↔ 0 ≤ a ∧ a ≤ 99)

/-! ## Input and output -/

/-- READ (`41_io.md`, section READ): stores an accepted value, discards a rejected one (the spec's decision D16), and
waits when nothing is offered. That the wait is a step to the same state is the model's choice, log 4. -/
def Obligations.ReadAcceptsRejectsOrWaits : Prop :=
  EncodedFrom 1000 .read ∧ ChecksDataAddress .read ∧
  ∀ (a : Int) (s : State), 0 ≤ a → a ≤ 99 →
    (∀ (w : Word) (rest : List Int), s.mem.wf = true → s.input = w.val :: rest →
      ∃ m, exec (.read a) s = .next { s with mem := m, ic := s.ic + 1, input := rest } ∧
        m.read? a = some w ∧ ∀ b, b ≠ a → m.read? b = s.mem.read? b) ∧
    (∀ (v : Int) (rest : List Int), ¬(-9999 ≤ v ∧ v ≤ 9999) → s.input = v :: rest →
      exec (.read a) s = .next { s with input := rest }) ∧
    (s.input = [] → exec (.read a) s = .next s)

/-- WRITE (`41_io.md`, section WRITE): it emits the address and the cell's value, and advances; memory and everything
else stay. That emitting never waits is the spec's decision D19, log 17. -/
def Obligations.WriteEmitsItsCell : Prop :=
  EncodedFrom 1100 .write ∧ ChecksDataAddress .write ∧
  ∀ (a : Int) (s : State), 0 ≤ a → a ≤ 99 → ∃ v, s.mem.read? a = some v ∧
    exec (.write a) s = .next { s with output := s.output ++ [(a, v)], ic := s.ic + 1 }

/-- Rejected inputs in a row leave everything but `In` as it was (`41_io.md` section READ; the spec's decision D16). -/
def Obligations.RejectedInputsAreOnlyConsumed : Prop :=
  ∀ (bad rest : List Int) (s : State), s.phase = .exec → s.status = .running → s.opc.val = 10 →
    0 ≤ s.opd.val → s.opd.val ≤ 99 → (∀ v ∈ bad, ¬(-9999 ≤ v ∧ v ≤ 9999)) → s.input = bad ++ rest →
    Host.Core.run Sys2Proof.core bad.length s = .next { s with input := rest }

/-! ## Load and store -/

/-- LOAD (`42_load_store.md` R131): the accumulator takes the cell, and the instruction advances; memory and everything
else stay. -/
def Obligations.LoadTakesTheCell : Prop :=
  EncodedFrom 2000 .load ∧ ChecksDataAddress .load ∧
  ∀ (a : Int) (s : State), 0 ≤ a → a ≤ 99 → ∃ v, s.mem.read? a = some v ∧
    exec (.load a) s = .next { s with acc := v, ic := s.ic + 1 }

/-- STORE (`42_load_store.md` R132): the cell takes the accumulator; every other cell and everything else stay. -/
def Obligations.StoreWritesTheCell : Prop :=
  EncodedFrom 2100 .store ∧ ChecksDataAddress .store ∧
  ∀ (a : Int) (s : State), s.mem.wf = true → 0 ≤ a → a ≤ 99 →
    ∃ m, exec (.store a) s = .next { s with mem := m, ic := s.ic + 1 } ∧
      m.read? a = some s.acc ∧ ∀ b, b ≠ a → m.read? b = s.mem.read? b

/-- The round trips of `42_load_store.md` section Laws, each as two steps of the machine. -/
def Obligations.LoadStoreRoundTrip : Prop :=
  ∀ (s : State) (a : Int) (wl ws : Word), CoreInvariant s → s.phase = .exec → s.status = .running → s.ic ≤ 98 →
    0 ≤ a → a ≤ 99 → wl.val = 2000 + a → ws.val = 2100 + a →
    (s.mem.read? s.ic = some wl → s.mem.read? (s.ic + 1) = some ws →
      ∃ t, Host.Core.run Sys2Proof.core 2 s = .next t ∧ (∀ b, t.mem.read? b = s.mem.read? b) ∧
        s.mem.read? a = some t.acc) ∧
    (s.mem.read? s.ic = some ws → s.mem.read? (s.ic + 1) = some wl → a ≠ s.ic + 1 →
      ∃ t, Host.Core.run Sys2Proof.core 2 s = .next t ∧ t.acc = s.acc ∧ t.mem.read? a = some s.acc)

/-- A word that STORE or READ puts at the next address is the instruction fetched next (`20_memory.md` section 6). -/
def Obligations.StoredWordIsFetchedNext : Prop :=
  ∀ s : State, CoreInvariant s → s.phase = .exec → s.status = .running → s.opd.val = s.ic + 1 →
    (s.opc.val = 21 → ∃ t, step s = .next t ∧ t.status = .running ∧ t.ic = s.ic + 1 ∧ t.ir = s.acc) ∧
    (∀ (w : Word) (rest : List Int), s.opc.val = 10 → s.input = w.val :: rest →
      ∃ t, step s = .next t ∧ t.status = .running ∧ t.ic = s.ic + 1 ∧ t.ir = w)

/-! ## Arithmetic -/

/-- The arithmetic-logic unit (`43_arithmetic.md` section 1): exact results or Overflow, and a quotient that is always a
Word. The rounding of an inexact quotient is the spec's decision D8, log 9. -/
def Obligations.AluIsExactOrRefuses : Prop :=
  ∀ a b : Word,
    alu .pass a b = .ok b ∧
    (∀ r, alu .add a b = .ok r ↔ r.val = a.val + b.val) ∧
    (alu .add a b = .overflow ↔ inRange (a.val + b.val) = false) ∧
    (∀ r, alu .sub a b = .ok r ↔ r.val = a.val - b.val) ∧
    (alu .sub a b = .overflow ↔ inRange (a.val - b.val) = false) ∧
    (∀ r, alu .mul a b = .ok r ↔ r.val = a.val * b.val) ∧
    (alu .mul a b = .overflow ↔ inRange (a.val * b.val) = false) ∧
    (alu .div a b = .divideByZero ↔ b.val = 0) ∧ alu .div a b ≠ .overflow ∧
    (∀ r, alu .div a b = .ok r →
      r.val = a.val.sign * b.val.sign * ((a.val.natAbs / b.val.natAbs : Nat) : Int) ∧
      r.val.natAbs ≤ a.val.natAbs ∧ (b.val ∣ a.val → r.val * b.val = a.val))

/-- ADD (`43_arithmetic.md` section 2). That the counter stays on Overflow is the spec's decision D13 (log 12), and
where the bounds are checked its decision D10 (log 11). -/
def Obligations.AddIsOverflowChecked : Prop :=
  EncodedFrom 3000 .add ∧ ChecksDataAddress .add ∧ OverflowChecked .add (fun x y => x + y)

/-- SUBTRACT (`43_arithmetic.md` section 2): the accumulator is the left operand. That the counter stays on Overflow is
the spec's decision D13 (log 12), and where the bounds are checked its decision D10 (log 11). -/
def Obligations.SubtractIsOverflowChecked : Prop :=
  EncodedFrom 3100 .subtract ∧ ChecksDataAddress .subtract ∧ OverflowChecked .subtract (fun x y => x - y)

/-- MULTIPLY (`43_arithmetic.md` section 2). That the counter stays on Overflow is the spec's decision D13 (log 12), and
where the bounds are checked its decision D10 (log 11). -/
def Obligations.MultiplyIsOverflowChecked : Prop :=
  EncodedFrom 3300 .multiply ∧ ChecksDataAddress .multiply ∧ OverflowChecked .multiply (fun x y => x * y)

/-- DIVIDE by a divisor that is not 0 (`43_arithmetic.md` section 2): the accumulator takes the quotient, truncated
toward zero by the spec's decision D8 (log 9), and the instruction advances. -/
def Obligations.DivideTakesTheTruncatedQuotient : Prop :=
  EncodedFrom 3200 .divide ∧ ChecksDataAddress .divide ∧
  ∀ (a : Int) (s : State) (d : Word), s.mem.read? a = some d → d.val ≠ 0 →
    ∃ q : Word, q.val = s.acc.val.sign * d.val.sign * ((s.acc.val.natAbs / d.val.natAbs : Nat) : Int) ∧
      exec (.divide a) s = .next { s with acc := q, ic := s.ic + 1 }

/-- DIVIDE by 0 (`43_arithmetic.md` section 1): only the status changes and no fetch follows; the test is on the divisor
only, so 0 divided by another divisor is 0. That the counter stays is the spec's decision D13, log 12. -/
def Obligations.DivideByZeroHalts : Prop :=
  ∀ (a : Int) (s : State) (d : Word), s.mem.read? a = some d →
    (d.val = 0 → exec (.divide a) s = .next { s with status := .halted .divideByZero }) ∧
    (d.val = 0 → s.phase = .exec → s.status = .running → s.opc.val = 32 → s.opd.val = a →
      step s = .next { s with status := .halted .divideByZero }) ∧
    (d.val ≠ 0 → s.acc = Word.zero → exec (.divide a) s = .next { s with ic := s.ic + 1 })

/-! ## Control -/

/-- BRANCH (`44_control.md` R160): the counter takes the operand; the fetch of the step reads the target. -/
def Obligations.BranchSetsTheCounter : Prop :=
  EncodedFrom 4000 .branch ∧
  (∀ (a : Int) (s : State), exec (.branch a) s = .next { s with ic := a }) ∧
  (∀ (s : State) (w : Word), s.phase = .exec → s.status = .running → s.opc.val = 40 →
    s.mem.read? s.opd.val = some w →
    step s = .next { s with ic := s.opd.val, ir := w, opc := opcodeField w, opd := operandField w })

/-- BRANCHNEG (`44_control.md` R161). -/
def Obligations.BranchnegTestsTheSign : Prop :=
  EncodedFrom 4100 .branchneg ∧
  ∀ (a : Int) (s : State),
    (s.acc.val < 0 → exec (.branchneg a) s = .next { s with ic := a }) ∧
    (0 ≤ s.acc.val → exec (.branchneg a) s = .next { s with ic := s.ic + 1 })

/-- BRANCHZERO (`44_control.md` R162). -/
def Obligations.BranchzeroTestsZero : Prop :=
  EncodedFrom 4200 .branchzero ∧
  ∀ (a : Int) (s : State),
    (s.acc.val = 0 → exec (.branchzero a) s = .next { s with ic := a }) ∧
    (s.acc.val ≠ 0 → exec (.branchzero a) s = .next { s with ic := s.ic + 1 })

/-- A branch to its own address changes no state at all (`44_control.md` section 1, a corner case of BRANCH). -/
def Obligations.BranchToItselfChangesNothing : Prop :=
  ∀ s : State, CoreInvariant s → s.phase = .exec → s.status = .running → s.opc.val = 40 → s.opd.val = s.ic →
    step s = .next s

/-- HALT (`44_control.md` section 2): only the status changes, whatever the operand, and no fetch follows. That the
counter stays and that the operand is ignored are the spec's decisions D12 and D15, log 12. -/
def Obligations.HaltSetsOnlyTheStatus : Prop :=
  EncodedFrom 4300 .halt ∧
  (∀ (x : Int) (s : State), exec (.halt x) s = .next { s with status := .halted .normal }) ∧
  (∀ s : State, s.phase = .exec → s.status = .running → s.opc.val = 43 →
    step s = .next { s with status := .halted .normal })

/-- An undefined operation code (`44_control.md` section 3): only the status changes, by the spec's decision D13. -/
def Obligations.UndefinedOpcodeHalts : Prop :=
  ∀ s : State, s.phase = .exec → s.status = .running →
    s.opc.val ∉ [(10 : Int), 11, 20, 21, 30, 31, 32, 33, 40, 41, 42, 43] →
    step s = .next { s with status := .halted .invalidOpcode }

/-! ## The cycle -/

/-- Fetch (`40_execution_cycle.md` section 3), the bounds check being the spec's decision D11. -/
def Obligations.FetchLatchesTheWordAtTheCounter : Prop :=
  ∀ s : State, Fetched s s.fetch

/-- The step (`40_execution_cycle.md` sections 4 and 5): dispatch on the operation code, Execute, and the fetch after an
instruction that advanced or jumped, and after no other. A READ that finds nothing, or a value that is no Word, is
followed by no fetch. That a READ that finds nothing has a step at all, to the same state, is the model's choice, log 4
(D17); that a rejected value is one step is the spec's decision D16, and that InvalidOpcode changes only the status its
decision D13, log 12. -/
def Obligations.StepIsExecuteThenFetch : Prop :=
  ∀ s : State, s.phase = .exec → s.status = .running →
    (∀ e, decodeFields s.opc.val s.opd.val = .error e →
      step s = .next { s with status := .halted .invalidOpcode }) ∧
    (∀ (i : Instr) (t : State), i.opcode = s.opc.val → i.operand = s.opd.val → exec i s = .next t →
      (t.status ≠ .running → step s = .next t) ∧
      (t.status = .running → s.opc.val = 10 → (∀ v ∈ s.input.head?, ¬(-9999 ≤ v ∧ v ≤ 9999)) →
        step s = .next t) ∧
      (t.status = .running → ¬(s.opc.val = 10 ∧ ∀ v ∈ s.input.head?, ¬(-9999 ≤ v ∧ v ≤ 9999)) →
        ∃ u, Fetched t u ∧ step s = .next u))

/-- When a step is enabled (`40_execution_cycle.md` sections 5 and 7): exactly in the Exec phase of a running machine,
and, for a READ at a good address, with a value offered; an offered value enables a waiting READ. The waiting READ is
the spec's decision D17. What `step` answers where no step is enabled, the same state or a fault, is the model's choice,
logs 4, 5 and 6. -/
def Obligations.StepIsEnabledExactlyWhen : Prop :=
  ∀ s : State,
    (stepEnabled s = true ↔ s.phase = .exec ∧ s.status = .running ∧
      (s.opc.val = 10 → 0 ≤ s.opd.val → s.opd.val ≤ 99 → s.input ≠ [])) ∧
    (stepEnabled s = true → ∃ t, step s = .next t) ∧
    (s.status = .running → stepEnabled s = false → step s = .next s) ∧
    (∀ r, s.status = .halted r → stepEnabled s = false ∧ step s = .fault (.halted r)) ∧
    (∀ v, s.phase = .exec → s.status = .running → stepEnabled (offerInput v s) = true)

/-- Where the word at the counter decodes to an instruction, the step of a running machine is Execute of that
instruction, settled as `StepIsExecuteThenFetch` says (`40_execution_cycle.md` section 5). That `ir` is the word at the
counter comes from `10_state.md` section 3, and that the instruction is well formed from `30_encoding.md` section 4. For
a READ with nothing offered the spec enables no step, and that the step answers the same state is the model's choice,
log 4. -/
def Obligations.StepRunsTheInstructionAtTheCounter : Prop :=
  ∀ (s : State) (w : Word) (i : Instr), CoreInvariant s → s.phase = .exec → s.status = .running →
    s.mem.read? s.ic = some w → decode w = .ok i → i.wellFormed = true ∧ step s = settle i s (exec i s)

/-- The step where no step of the run is enabled: in the Load phase the engine waits, and a halted machine gives no next
state. Both answers are the model's choice, logs 5 and 6. -/
def Obligations.NoStepOutsideARun : Prop :=
  ∀ s : State,
    (s.status = .running → s.phase = .load → step s = .next s) ∧
    (∀ r, s.status = .halted r → step s = .fault (.halted r))

/-- A running machine always steps, and no step is ever refused (`40_execution_cycle.md` section 7, which promises a
step in the Exec phase only). A waiting READ steps to the same state, which is the model's choice, log 4, and so does
the Load phase, where the spec's engine takes no step: the model's choice, log 5. -/
def Obligations.RunningMachineAlwaysSteps : Prop :=
  ∀ s : State, (s.status = .running → ∃ t, step s = .next t) ∧ ∀ r, step s ≠ .refused r

/-- Which halt reason arises, and exactly when (`60_exceptions.md` sections 1 and 5; the order of the checks is the
spec's decision D14, and the counter at 100 its decision D11). -/
def Obligations.HaltReasonsExactlyWhen : Prop :=
  ∀ s t : State, CoreInvariant s → s.phase = .exec → s.status = .running → step s = .next t →
    (t.status = .halted .normal ↔ s.opc.val = 43) ∧
    (t.status = .halted .invalidOpcode ↔
      s.opc.val ∉ [(10 : Int), 11, 20, 21, 30, 31, 32, 33, 40, 41, 42, 43]) ∧
    (t.status = .halted .overflow ↔ ∃ b, s.mem.read? s.opd.val = some b ∧
      ((s.opc.val = 30 ∧ inRange (s.acc.val + b.val) = false) ∨
        (s.opc.val = 31 ∧ inRange (s.acc.val - b.val) = false) ∨
        (s.opc.val = 33 ∧ inRange (s.acc.val * b.val) = false))) ∧
    (t.status = .halted .divideByZero ↔ s.opc.val = 32 ∧ s.mem.read? s.opd.val = some Word.zero) ∧
    (t.status = .halted .boundsViolation ↔ t.ic = 100)

/-- Halting is precise (`60_exceptions.md` section 2 for the fatal reasons, `44_control.md` section 2 for HALT). The
counter that stays is the spec's decision D13 for the fatal reasons and D12 for HALT (log 12); the fetch past address 99
is D11 (log 11). The step changes nothing but the status, or the instruction at 99 completed and the fetch at 100
failed. -/
def Obligations.HaltingIsPrecise : Prop :=
  ∀ (s t : State) (r : HaltReason), CoreInvariant s → s.phase = .exec → s.status = .running → step s = .next t →
    t.status = .halted r →
    t = { s with status := .halted r } ∨
      (r = .boundsViolation ∧ s.ic = 99 ∧ t.ic = 100 ∧
        ∃ i, decodeFields s.opc.val s.opd.val = .ok i ∧ exec i s = .next { t with status := .running })

/-- The control table (`30_encoding.md` section 5) bounds what a step does, and with it the frame of every instruction:
what a row says is not written, requested, emitted or raised is not, and the counter moves as the row says. The
instruction registers keep their values on a stop and on a hold, and otherwise hold the word at the new counter and its
fields (`40_execution_cycle.md` section 5). That the counter and the registers stay on a stop is the spec's decision D12
for HALT and D13 for the fatal conditions (log 12), the fetch past address 99 its D11 (log 11); a READ with nothing
offered is log 4. -/
def Obligations.ControlTableBoundsTheStep : Prop :=
  ∀ (s t : State) (c : Controls), s.phase = .exec → s.status = .running → step s = .next t →
    c = controls (decodeFields s.opc.val s.opd.val) →
    (c.writesAcc = false → t.acc = s.acc) ∧
    (c.writesCell = false → t.mem = s.mem) ∧
    (∀ b, b ≠ s.opd.val → t.mem.read? b = s.mem.read? b) ∧
    (c.requestsInput = false → t.input = s.input) ∧
    (t.input = s.input ∨ ∃ v, s.input = v :: t.input) ∧
    (c.emitsOutput = false → t.output = s.output) ∧
    (t.output = s.output ∨ ∃ v, s.mem.read? s.opd.val = some v ∧ t.output = s.output ++ [(s.opd.val, v)]) ∧
    (c.counter = .hold → t.ic = s.ic) ∧
    (c.counter = .plusOne → t.ic = s.ic + 1 ∨ (t.ic = s.ic ∧ ∃ r, t.status = .halted r)) ∧
    (c.counter = .plusOneIfAccepted → t.ic = s.ic + 1 ∨ (t.ic = s.ic ∧ t.mem = s.mem)) ∧
    (c.counter = .target → t.ic = s.opd.val) ∧
    (c.counter = .targetIfNegative → t.ic = if s.acc.val < 0 then s.opd.val else s.ic + 1) ∧
    (c.counter = .targetIfZero → t.ic = if s.acc.val = 0 then s.opd.val else s.ic + 1) ∧
    (t.status = .halted .invalidOpcode → c.raisesInvalidOpcode = true) ∧
    (t.status = .halted .overflow → c.raisesOverflow = true) ∧
    (t.status = .halted .divideByZero → c.raisesDivideByZero = true) ∧
    (t.status = .halted .boundsViolation → c.raisesBoundsViolation = true ∨ ¬(0 ≤ t.ic ∧ t.ic ≤ 99)) ∧
    (t.status = .halted .normal → s.opc.val = 43) ∧
    (t.status ≠ .running → t.ir = s.ir ∧ t.opc = s.opc ∧ t.opd = s.opd) ∧
    (s.opc.val = 10 → (∀ v ∈ s.input.head?, ¬(-9999 ≤ v ∧ v ≤ 9999)) → t.ir = s.ir ∧ t.opc = s.opc ∧ t.opd = s.opd) ∧
    (t.status = .running → ¬(s.opc.val = 10 ∧ ∀ v ∈ s.input.head?, ¬(-9999 ≤ v ∧ v ≤ 9999)) →
      t.mem.read? t.ic = some t.ir ∧ t.opc.val = tdiv t.ir.val 100 ∧ t.opd.val = tmod t.ir.val 100) ∧
    t.phase = s.phase ∧ t.lc = s.lc

/-- `Out` is written and never read: with another `Out` the step is the same, and appends the same pairs
(`10_state.md` section 5, `41_io.md` section WRITE). -/
def Obligations.OutputNeverFeedsBack : Prop :=
  ∀ (s t : State) (o : List (Int × Word)), step s = .next t →
    ∃ p, p.length ≤ 1 ∧ t.output = s.output ++ p ∧
      step { s with output := o } = .next { t with output := o ++ p }

/-- Values offered behind the next one do not matter to a step: they stay in `In`, in order
(`70_reset_and_hazards.md` section 6, `41_io.md` section WRITE, on the order of external events). -/
def Obligations.UnreadInputStaysInOrder : Prop :=
  ∀ (s t : State) (more : List Int), (s.input ≠ [] ∨ s.opc.val ≠ 10) → step s = .next t →
    step { s with input := s.input ++ more } = .next { t with input := t.input ++ more }

/-- The two formulations of the cycle (`40_execution_cycle.md` section 5) halt in the same states. -/
def Obligations.FetchFirstCycleHaltsAlike : Prop :=
  ∀ (s h : State) (r : HaltReason), CoreInvariant s → s.phase = .exec → s.status = .running →
    h.status = .halted r →
    ((∃ n, Host.Core.run Sys2Proof.core n s = .next h) ↔ ∃ n, Host.Core.run coreFetchFirst n s = .next h)

/-! ## Halted -/

/-- Once halted, no step is enabled, no event changes the state, and only reset leaves it (`40_execution_cycle.md`
section 6; that there is no restart without reset is the spec's decision D22, log 13). -/
def Obligations.HaltedIsAbsorbing : Prop :=
  ∀ (s : State) (r : HaltReason), s.status = .halted r →
    (¬∃ t, step s = .next t) ∧ (∀ v, SameTuple s (loadWord v s)) ∧ SameTuple s (start s) ∧
    (∀ v, SameTuple s (offerInput v s)) ∧ (hostReset s).status = .running

/-- Dump (`70_reset_and_hazards.md` section 5; that a running machine shows nothing is the spec's decision D22). -/
def Obligations.DumpShowsTheHaltedState : Prop :=
  ∀ s : State,
    (∀ r, s.status = .halted r → ∃ d, dump s = some d ∧ d.acc = s.acc ∧ d.ic = s.ic ∧ d.ir = s.ir ∧
      d.opc = s.opc ∧ d.opd = s.opd ∧ d.reason = r ∧ ∀ a, d.cell? a = s.mem.read? a) ∧
    (s.status = .running → dump s = none)

/-- The status port (`60_exceptions.md` section 1): the `halted` bit, the reason's code while it is set, and the five
codes, which are the spec's decision D6 (log 21). -/
def Obligations.StatusPortNamesTheReason : Prop :=
  (∀ s : State, haltedBit s = true ↔ ∃ r, s.status = .halted r) ∧
  (∀ (s : State) (r : HaltReason), s.status = .halted r → reasonField? s = some r.code) ∧
  (∀ s : State, s.status = .running → reasonField? s = none) ∧
  HaltReason.normal.code = 0 ∧ HaltReason.invalidOpcode.code = 1 ∧ HaltReason.overflow.code = 2 ∧
  HaltReason.divideByZero.code = 3 ∧ HaltReason.boundsViolation.code = 4 ∧
  (∀ r r' : HaltReason, r.code = r'.code → r = r') ∧ (∀ r : HaltReason, r.code.toNat ≤ 4)

/-! ## Reset, loading and start -/

/-- Reset (`70_reset_and_hazards.md` section 1, with the values of `10_state.md` section 6: memory by the source, the
rest by the spec's decisions D4 and D5). That `Out` is emptied and `In` kept is the model's choice, log 13. -/
def Obligations.ResetSetsTheWholeTuple : Prop :=
  ∀ s : State, ∃ t, t = hostReset s ∧ (∀ a, 0 ≤ a → a ≤ 99 → t.mem.read? a = some Word.zero) ∧
    t.acc.val = 0 ∧ t.ic = 0 ∧ t.ir.val = 0 ∧ t.opc.val = 0 ∧ t.opd.val = 0 ∧ t.status = .running ∧
    t.phase = .load ∧ t.lc = 0 ∧ t.output = [] ∧ t.input = s.input ∧ SameTuple t State.reset

/-- `LoadWord(v)` (`70_reset_and_hazards.md` section 3; the overflow and the refusal outside the Load phase are the
spec's decision D20, log 16). -/
def Obligations.LoaderWordResponses : Prop :=
  ∀ (s : State) (v : Int),
    (s.phase = .load → s.status = .running →
      (v = -99999 → loadWord v s = start s) ∧
      (v ≠ -99999 → ¬(-9999 ≤ v ∧ v ≤ 9999) → loadWord v s = s) ∧
      (∀ w : Word, w.val = v → s.lc ≤ 99 → s.mem.wf = true →
        ∃ m, loadWord v s = { s with mem := m, lc := s.lc + 1 } ∧ m.read? s.lc = some w ∧
          ∀ b, b ≠ (s.lc : Int) → m.read? b = s.mem.read? b) ∧
      (-9999 ≤ v → v ≤ 9999 → 100 ≤ s.lc →
        loadWord v s = { s with status := .halted .boundsViolation, phase := .exec })) ∧
    (¬(s.phase = .load ∧ s.status = .running) → loadWord v s = s)

/-- Start (`70_reset_and_hazards.md` section 4; the spec's decision D21). -/
def Obligations.StartFetchesTheFirstWord : Prop :=
  ∀ s : State,
    (s.phase = .load → s.status = .running → Fetched { s with phase := .exec } (start s)) ∧
    (¬(s.phase = .load ∧ s.status = .running) → start s = s)

/-- The launch state of any sequence of loader words without the sentinel, of which at most 100 are Words
(`70_reset_and_hazards.md` section 4): the Words stand from address 0 on, in order, the rest of memory is 0, and the
first one has been fetched. -/
def Obligations.LoadingBuildsTheLaunchState : Prop :=
  ∀ (offered inputs : List Int) (ws : List Word), -99999 ∉ offered → ws = offered.filterMap Word.ofInt? →
    ws.length ≤ 100 →
    ∃ t w0, t = launch offered inputs ∧
      (∀ a : Nat, a ≤ 99 → t.mem.read? a = some (ws.getD a Word.zero)) ∧
      t.mem.read? 0 = some w0 ∧ t.ir = w0 ∧ t.opc.val = tdiv w0.val 100 ∧ t.opd.val = tmod w0.val 100 ∧
      t.acc.val = 0 ∧ t.ic = 0 ∧ t.status = .running ∧ t.phase = .exec ∧ t.lc = ws.length ∧
      t.input = inputs ∧ t.output = []

/-! ## The invariant -/

/-- The state after reset meets the invariant. -/
def Obligations.ResetMeetsTheInvariant : Prop := CoreInvariant State.reset

/-- Every step keeps the invariant: the canonical memory, the coupling of the registers (`10_state.md` R31), the range
of the counter (section 7), the instruction register at a boundary (section 3), and the rest of `CoreInvariant`. -/
def Obligations.StepKeepsTheInvariant : Prop :=
  ∀ s t : State, CoreInvariant s → step s = .next t → CoreInvariant t

/-- Every event from outside the core keeps the invariant. -/
def Obligations.EventsKeepTheInvariant : Prop :=
  ∀ (s : State) (v : Int), CoreInvariant s →
    CoreInvariant (hostReset s) ∧ CoreInvariant (loadWord v s) ∧ CoreInvariant (start s) ∧ CoreInvariant (offerInput v s)
end

