-- ==== Sys2Proof/Laws/Memory.lean ====
section
/-! SUPPORT. The memory operations: what a read gives after a write, and that every operation keeps the canonical
form. -/

namespace Sys2Proof.Machine

theorem inBounds_iff {a : Int} : inBounds a = true ↔ 0 ≤ a ∧ a ≤ 99 := by
  simp only [inBounds, Config.memLen, Bool.and_eq_true, decide_eq_true_eq]; omega

theorem ofInt?_eq_some {v : Int} {w : Word} : Word.ofInt? v = some w ↔ w.val = v := by
  unfold Word.ofInt?
  split
  · exact ⟨fun h => by cases h; rfl, fun h => by rw [Option.some.injEq]; exact Word.eq_of_val h.symm⟩
  · rename_i h
    exact ⟨fun k => (Option.some_ne_none _ k.symm).elim, fun k => absurd (k ▸ w.ok) h⟩

theorem ofInt?_eq_none {v : Int} : Word.ofInt? v = none ↔ ¬(-9999 ≤ v ∧ v ≤ 9999) := by
  rw [← inRange_iff]
  unfold Word.ofInt?
  split <;> simp_all

@[simp] theorem ofInt?_val (w : Word) : Word.ofInt? w.val = some w := ofInt?_eq_some.mpr rfl

/-! ## Lists of cells -/

theorem cellsCanonical_cons {lo a : Nat} {v : Word} {l : List (Nat × Word)} :
    cellsCanonical lo ((a, v) :: l) = true ↔
      lo ≤ a ∧ a < 100 ∧ v ≠ Word.zero ∧ cellsCanonical (a + 1) l = true := by
  simp [cellsCanonical, and_assoc]

theorem cellsCanonical_mono {l : List (Nat × Word)} {lo lo' : Nat} (h : lo' ≤ lo)
    (hl : cellsCanonical lo l = true) : cellsCanonical lo' l = true := by
  cases l with
  | nil => rfl
  | cons p l =>
    obtain ⟨a, v⟩ := p
    rw [cellsCanonical_cons] at hl ⊢
    exact ⟨by omega, hl.2⟩

/-- Below the first listed address every cell reads 0. -/
theorem lookupCell_below {l : List (Nat × Word)} : ∀ {lo a : Nat}, cellsCanonical lo l = true → a < lo →
    lookupCell a l = Word.zero := by
  induction l with
  | nil => intros; rfl
  | cons p l ih =>
    obtain ⟨b, w⟩ := p
    intro lo a hl ha
    rw [cellsCanonical_cons] at hl
    rw [lookupCell, if_neg (by omega)]
    exact ih hl.2.2.2 (by omega)

theorem lookupCell_putCell_other {a b : Nat} {v : Word} (h : b ≠ a) (l : List (Nat × Word)) :
    lookupCell b (putCell a v l) = lookupCell b l := by
  induction l with
  | nil => unfold putCell; split <;> simp [lookupCell, h]
  | cons p l ih =>
    obtain ⟨c, w⟩ := p
    unfold putCell
    split
    · split <;> simp [lookupCell, h]
    · split
      · subst c
        split <;> simp [lookupCell, h]
      · simp [lookupCell, ih]

theorem lookupCell_putCell_same {a : Nat} {v : Word} {l : List (Nat × Word)} : ∀ {lo : Nat},
    cellsCanonical lo l = true → lookupCell a (putCell a v l) = v := by
  induction l with
  | nil => intro lo _; unfold putCell; split <;> simp_all [lookupCell]
  | cons p l ih =>
    obtain ⟨c, w⟩ := p
    intro lo hl
    have hl' := cellsCanonical_cons.mp hl
    unfold putCell
    split
    · split
      · next hv =>
        rw [hv, lookupCell, if_neg (by omega)]
        exact lookupCell_below hl'.2.2.2 (by omega)
      · simp [lookupCell]
    · split
      · next hc =>
        subst c
        split
        · next hv => rw [hv]; exact lookupCell_below hl'.2.2.2 (by omega)
        · simp [lookupCell]
      · next hc =>
        rw [lookupCell, if_neg hc]
        exact ih hl'.2.2.2

theorem putCell_canonical {a : Nat} {v : Word} (ha : a < 100) {l : List (Nat × Word)} : ∀ {lo : Nat},
    lo ≤ a → cellsCanonical lo l = true → cellsCanonical lo (putCell a v l) = true := by
  induction l with
  | nil =>
    intro lo hlo _
    unfold putCell
    split
    · rfl
    · next hv => exact cellsCanonical_cons.mpr ⟨hlo, ha, hv, rfl⟩
  | cons p l ih =>
    obtain ⟨c, w⟩ := p
    intro lo hlo hl
    have hl' := cellsCanonical_cons.mp hl
    unfold putCell
    split
    · next hac =>
      split
      · exact hl
      · next hv => exact cellsCanonical_cons.mpr ⟨hlo, ha, hv, cellsCanonical_cons.mpr ⟨by omega, hl'.2⟩⟩
    · split
      · next hac =>
        split
        · exact cellsCanonical_mono (by omega) hl'.2.2.2
        · next hv => exact cellsCanonical_cons.mpr ⟨hlo, ha, hv, hac ▸ hl'.2.2.2⟩
      · exact cellsCanonical_cons.mpr ⟨hl'.1, hl'.2.1, hl'.2.2.1, ih (by omega) hl'.2.2.2⟩

/-- Two canonical lists that read the same are the same list. -/
theorem cells_eq_of_lookup {l l' : List (Nat × Word)} : ∀ {lo : Nat}, cellsCanonical lo l = true →
    cellsCanonical lo l' = true → (∀ a, lookupCell a l = lookupCell a l') → l = l' := by
  induction l generalizing l' with
  | nil =>
    intro lo _ hl' h
    cases l' with
    | nil => rfl
    | cons p l' =>
      obtain ⟨a, v⟩ := p
      have := h a
      simp [lookupCell] at this
      exact absurd this.symm (cellsCanonical_cons.mp hl').2.2.1
  | cons p l ih =>
    obtain ⟨a, v⟩ := p
    intro lo hl hl' h
    have hl2 := cellsCanonical_cons.mp hl
    cases l' with
    | nil =>
      have := h a
      simp [lookupCell] at this
      exact absurd this hl2.2.2.1
    | cons p' l' =>
      obtain ⟨b, w⟩ := p'
      have hl2' := cellsCanonical_cons.mp hl'
      have hab : a = b := by
        rcases lt_trichotomy a b with hlt | heq | hgt
        · have h1 := h a
          rw [lookupCell, if_pos rfl,
            lookupCell_below (lo := b) (cellsCanonical_cons.mpr ⟨le_refl b, hl2'.2⟩) hlt] at h1
          exact absurd h1 hl2.2.2.1
        · exact heq
        · have h1 := h b
          rw [lookupCell_below (lo := a) (cellsCanonical_cons.mpr ⟨le_refl a, hl2.2⟩) hgt,
            lookupCell, if_pos rfl] at h1
          exact absurd h1.symm hl2'.2.2.1
      subst hab
      have hv : v = w := by have := h a; simpa [lookupCell] using this
      subst hv
      congr 1
      refine ih hl2.2.2.2 hl2'.2.2.2 fun c => ?_
      by_cases hc : c = a
      · subst hc
        rw [lookupCell_below hl2.2.2.2 (by omega), lookupCell_below hl2'.2.2.2 (by omega)]
      · have := h c
        simpa [lookupCell, hc] using this

/-! ## Memory -/

theorem Memory.read?_of_bounds (m : Memory) {a : Int} (h0 : 0 ≤ a) (h1 : a ≤ 99) :
    m.read? a = some (lookupCell a.toNat m.cells) := by
  rw [Memory.read?, if_pos (inBounds_iff.mpr ⟨h0, h1⟩)]

/-- A read has a value exactly at the addresses 0 to 99. -/
theorem Memory.read?_eq_none (m : Memory) {a : Int} : m.read? a = none ↔ ¬(0 ≤ a ∧ a ≤ 99) := by
  rw [← inBounds_iff]; unfold Memory.read?; split <;> simp_all

theorem Memory.bounds_of_read? {m : Memory} {a : Int} {w : Word} (h : m.read? a = some w) : 0 ≤ a ∧ a ≤ 99 := by
  by_contra hc
  rw [m.read?_eq_none.mpr hc] at h
  cases h

theorem Memory.write?_eq_none (m : Memory) {a : Int} {v : Word} : m.write? a v = none ↔ ¬(0 ≤ a ∧ a ≤ 99) := by
  rw [← inBounds_iff]; unfold Memory.write?; split <;> simp_all

theorem Memory.write?_of_bounds (m : Memory) {a : Int} (v : Word) (h0 : 0 ≤ a) (h1 : a ≤ 99) :
    m.write? a v = some ⟨putCell a.toNat v m.cells⟩ := by
  rw [Memory.write?, if_pos (inBounds_iff.mpr ⟨h0, h1⟩)]

theorem Memory.write?_inv {m m' : Memory} {a : Int} {v : Word} (h : m.write? a v = some m') :
    (0 ≤ a ∧ a ≤ 99) ∧ m' = ⟨putCell a.toNat v m.cells⟩ := by
  have hb : 0 ≤ a ∧ a ≤ 99 := by
    by_contra hc
    rw [m.write?_eq_none.mpr hc] at h
    cases h
  rw [m.write?_of_bounds v hb.1 hb.2] at h
  exact ⟨hb, (Option.some.inj h).symm⟩

/-- A write keeps the canonical form. -/
theorem Memory.wf_write? {m m' : Memory} {a : Int} {v : Word} (hm : m.wf = true) (h : m.write? a v = some m') :
    m'.wf = true := by
  obtain ⟨hb, rfl⟩ := Memory.write?_inv h
  exact putCell_canonical (by omega) (Nat.zero_le _) hm

/-- A read of the cell just written gives the value written. -/
theorem Memory.read?_write?_same {m m' : Memory} {a : Int} {v : Word} (hm : m.wf = true)
    (h : m.write? a v = some m') : m'.read? a = some v := by
  obtain ⟨hb, rfl⟩ := Memory.write?_inv h
  rw [Memory.read?_of_bounds _ hb.1 hb.2]
  exact congrArg some (lookupCell_putCell_same hm)

/-- A write leaves every other cell as it was. -/
theorem Memory.read?_write?_other {m m' : Memory} {a b : Int} {v : Word} (h : m.write? a v = some m')
    (hab : b ≠ a) : m'.read? b = m.read? b := by
  obtain ⟨hb, rfl⟩ := Memory.write?_inv h
  by_cases hc : 0 ≤ b ∧ b ≤ 99
  · rw [Memory.read?_of_bounds _ hc.1 hc.2, Memory.read?_of_bounds _ hc.1 hc.2]
    exact congrArg some (lookupCell_putCell_other (by omega) _)
  · rw [(Memory.read?_eq_none _).mpr hc, (Memory.read?_eq_none _).mpr hc]

/-- Memories in canonical form that read the same everywhere are equal. -/
theorem Memory.eq_of_read? {m m' : Memory} (hm : m.wf = true) (hm' : m'.wf = true)
    (h : ∀ a, m.read? a = m'.read? a) : m = m' := by
  obtain ⟨l⟩ := m
  obtain ⟨l'⟩ := m'
  congr 1
  refine cells_eq_of_lookup hm hm' fun a => ?_
  by_cases ha : a < 100
  · have := h a
    rw [Memory.read?_of_bounds _ (by omega) (by omega), Memory.read?_of_bounds _ (by omega) (by omega)] at this
    simpa using this
  · have high : ∀ {l : List (Nat × Word)} {lo}, cellsCanonical lo l = true → lookupCell a l = Word.zero := by
      intro l
      induction l with
      | nil => intros; rfl
      | cons p l ih =>
        obtain ⟨b, w⟩ := p
        intro lo hl
        have hl' := cellsCanonical_cons.mp hl
        rw [lookupCell, if_neg (by omega)]
        exact ih hl'.2.2.2
    rw [high hm, high hm']

/-- The memory of the reset state has the canonical form. -/
theorem reset_mem_wf : State.reset.mem.wf = true := rfl

end Sys2Proof.Machine
end

