-- ==== Sys2Proof/Laws/Decode.lean ====
section
/-! SUPPORT. The decoder and the encoder: the two fields of a word as arithmetic, and what decoding answers. -/

namespace Sys2Proof

@[simp] theorem opcodeField_val (w : Word) : (opcodeField w).val = tdiv w.val 100 := rfl

@[simp] theorem operandField_val (w : Word) : (operandField w).val = tmod w.val 100 := rfl

/-- A word is a hundred times its operation code plus its operand. -/
theorem word_eq_fields (w : Word) : w.val = 100 * tdiv w.val 100 + tmod w.val 100 :=
  (Int.mul_tdiv_add_tmod w.val 100).symm

/-- The fields of a word that is not negative are its quotient and remainder as usual. -/
theorem fields_of_nonneg {v : Int} (h : 0 ≤ v) : tdiv v 100 = v / 100 ∧ tmod v 100 = v % 100 :=
  ⟨Int.tdiv_eq_ediv_of_nonneg h, Int.tmod_eq_emod_of_nonneg h⟩

/-- The fields of a negative word are zero or negative. -/
theorem fields_of_neg {v : Int} (h : v < 0) : tdiv v 100 = -((-v) / 100) ∧ tmod v 100 = -((-v) % 100) := by
  have h1 : tdiv (- -v) 100 = -tdiv (-v) 100 := Int.neg_tdiv (-v) 100
  have h2 : tmod (- -v) 100 = -tmod (-v) 100 := Int.neg_tmod (-v) 100
  have h3 := fields_of_nonneg (v := -v) (by omega)
  rw [Int.neg_neg] at h1 h2
  exact ⟨by rw [h1, h3.1], by rw [h2, h3.2]⟩

/-- A positive operation code and its operand are the two pairs of decimal digits. -/
theorem fields_iff {v c a : Int} (hc : 1 ≤ c) :
    (tdiv v 100 = c ∧ tmod v 100 = a) ↔ (0 ≤ a ∧ a ≤ 99 ∧ v = 100 * c + a) := by
  rcases lt_or_ge v 0 with h | h
  · have := fields_of_neg h
    omega
  · have := fields_of_nonneg h
    omega

/-- The truncated quotient by signs and magnitudes: the formula of `00_scope.md` R10. -/
theorem tdiv_eq_sign_mul (a b : Int) : tdiv a b = a.sign * b.sign * ((a.natAbs / b.natAbs : Nat) : Int) := by
  have key : ∀ m n : Nat, Int.tdiv (m : Int) (n : Int) = (m : Int).sign * (n : Int).sign * ((m / n : Nat) : Int) := by
    intro m n
    rcases Nat.eq_zero_or_pos m with rfl | hm
    · simp
    · rcases Nat.eq_zero_or_pos n with rfl | hn
      · simp
      · rw [Int.sign_eq_one_of_pos (by omega), Int.sign_eq_one_of_pos (by omega), Int.natCast_tdiv_eq_ediv]
        simp
  rcases Int.eq_nat_or_neg a with ⟨m, rfl | rfl⟩ <;> rcases Int.eq_nat_or_neg b with ⟨n, rfl | rfl⟩ <;>
    simp only [tdiv, Int.neg_tdiv, Int.tdiv_neg, key, Int.sign_neg, Int.natAbs_neg, Int.natAbs_natCast] <;> ring

/-- Decoding answers an instruction exactly when the two fields are that instruction's. -/
theorem decodeFields_eq_ok {c o : Int} {i : Instr} :
    decodeFields c o = .ok i ↔ i.opcode = c ∧ i.operand = o := by
  constructor
  · intro h
    unfold decodeFields at h
    split at h <;> first | (cases h; exact ⟨rfl, rfl⟩) | cases h
  · rintro ⟨rfl, rfl⟩
    cases i <;> rfl

/-- Decoding refuses exactly the operation codes that are none of the twelve, and by name. -/
theorem decodeFields_eq_error {c o : Int} {e : DecodeError} :
    decodeFields c o = .error e ↔
      e = .undefinedOpcode c ∧ c ∉ [(10 : Int), 11, 20, 21, 30, 31, 32, 33, 40, 41, 42, 43] := by
  constructor
  · intro h
    unfold decodeFields at h
    split at h <;> first | cases h; done | skip
    cases h
    simp_all
  · rintro ⟨rfl, h⟩
    unfold decodeFields
    split <;> simp_all

theorem opcode_mem (i : Instr) : i.opcode ∈ [(10 : Int), 11, 20, 21, 30, 31, 32, 33, 40, 41, 42, 43] := by
  cases i <;> simp [Instr.opcode]

theorem opcode_bounds (i : Instr) : 10 ≤ i.opcode ∧ i.opcode ≤ 43 := by
  cases i <;> simp [Instr.opcode]

/-- What a decoded word is: a hundred times the operation code plus an operand 0 to 99. -/
theorem decode_eq_ok {w : Word} {i : Instr} :
    decode w = .ok i ↔ 0 ≤ i.operand ∧ i.operand ≤ 99 ∧ w.val = 100 * i.opcode + i.operand := by
  have hc := opcode_bounds i
  rw [decode, decodeFields_eq_ok, eq_comm, @eq_comm _ i.operand, ← fields_iff (by omega)]
  rfl

end Sys2Proof
end

