-- ==== Sys2Proof/Laws/State.lean ====
section
/-! SUPPORT. One lemma per field per update of State, so that no later proof unfolds a record update. -/

namespace Sys2Proof.Machine

/-! `State.setMem` -/

section
variable (s : State) (m : Memory)

@[simp] theorem State.setMem_mem : (s.setMem m).mem = m := rfl
@[simp] theorem State.setMem_acc : (s.setMem m).acc = s.acc := rfl
@[simp] theorem State.setMem_ic : (s.setMem m).ic = s.ic := rfl
@[simp] theorem State.setMem_ir : (s.setMem m).ir = s.ir := rfl
@[simp] theorem State.setMem_opc : (s.setMem m).opc = s.opc := rfl
@[simp] theorem State.setMem_opd : (s.setMem m).opd = s.opd := rfl
@[simp] theorem State.setMem_status : (s.setMem m).status = s.status := rfl
@[simp] theorem State.setMem_phase : (s.setMem m).phase = s.phase := rfl
@[simp] theorem State.setMem_lc : (s.setMem m).lc = s.lc := rfl
@[simp] theorem State.setMem_input : (s.setMem m).input = s.input := rfl
@[simp] theorem State.setMem_output : (s.setMem m).output = s.output := rfl

end

/-! `State.setAcc` -/

section
variable (s : State) (v : Word)

@[simp] theorem State.setAcc_mem : (s.setAcc v).mem = s.mem := rfl
@[simp] theorem State.setAcc_acc : (s.setAcc v).acc = v := rfl
@[simp] theorem State.setAcc_ic : (s.setAcc v).ic = s.ic := rfl
@[simp] theorem State.setAcc_ir : (s.setAcc v).ir = s.ir := rfl
@[simp] theorem State.setAcc_opc : (s.setAcc v).opc = s.opc := rfl
@[simp] theorem State.setAcc_opd : (s.setAcc v).opd = s.opd := rfl
@[simp] theorem State.setAcc_status : (s.setAcc v).status = s.status := rfl
@[simp] theorem State.setAcc_phase : (s.setAcc v).phase = s.phase := rfl
@[simp] theorem State.setAcc_lc : (s.setAcc v).lc = s.lc := rfl
@[simp] theorem State.setAcc_input : (s.setAcc v).input = s.input := rfl
@[simp] theorem State.setAcc_output : (s.setAcc v).output = s.output := rfl

end

/-! `State.advance` -/

section
variable (s : State)

@[simp] theorem State.advance_mem : s.advance.mem = s.mem := rfl
@[simp] theorem State.advance_acc : s.advance.acc = s.acc := rfl
@[simp] theorem State.advance_ic : s.advance.ic = s.ic + 1 := rfl
@[simp] theorem State.advance_ir : s.advance.ir = s.ir := rfl
@[simp] theorem State.advance_opc : s.advance.opc = s.opc := rfl
@[simp] theorem State.advance_opd : s.advance.opd = s.opd := rfl
@[simp] theorem State.advance_status : s.advance.status = s.status := rfl
@[simp] theorem State.advance_phase : s.advance.phase = s.phase := rfl
@[simp] theorem State.advance_lc : s.advance.lc = s.lc := rfl
@[simp] theorem State.advance_input : s.advance.input = s.input := rfl
@[simp] theorem State.advance_output : s.advance.output = s.output := rfl

end

/-! `State.jumpTo` -/

section
variable (s : State) (a : Int)

@[simp] theorem State.jumpTo_mem : (s.jumpTo a).mem = s.mem := rfl
@[simp] theorem State.jumpTo_acc : (s.jumpTo a).acc = s.acc := rfl
@[simp] theorem State.jumpTo_ic : (s.jumpTo a).ic = a := rfl
@[simp] theorem State.jumpTo_ir : (s.jumpTo a).ir = s.ir := rfl
@[simp] theorem State.jumpTo_opc : (s.jumpTo a).opc = s.opc := rfl
@[simp] theorem State.jumpTo_opd : (s.jumpTo a).opd = s.opd := rfl
@[simp] theorem State.jumpTo_status : (s.jumpTo a).status = s.status := rfl
@[simp] theorem State.jumpTo_phase : (s.jumpTo a).phase = s.phase := rfl
@[simp] theorem State.jumpTo_lc : (s.jumpTo a).lc = s.lc := rfl
@[simp] theorem State.jumpTo_input : (s.jumpTo a).input = s.input := rfl
@[simp] theorem State.jumpTo_output : (s.jumpTo a).output = s.output := rfl

end

/-! `State.latch` -/

section
variable (s : State) (w : Word)

@[simp] theorem State.latch_mem : (s.latch w).mem = s.mem := rfl
@[simp] theorem State.latch_acc : (s.latch w).acc = s.acc := rfl
@[simp] theorem State.latch_ic : (s.latch w).ic = s.ic := rfl
@[simp] theorem State.latch_ir : (s.latch w).ir = w := rfl
@[simp] theorem State.latch_opc : (s.latch w).opc = opcodeField w := rfl
@[simp] theorem State.latch_opd : (s.latch w).opd = operandField w := rfl
@[simp] theorem State.latch_status : (s.latch w).status = s.status := rfl
@[simp] theorem State.latch_phase : (s.latch w).phase = s.phase := rfl
@[simp] theorem State.latch_lc : (s.latch w).lc = s.lc := rfl
@[simp] theorem State.latch_input : (s.latch w).input = s.input := rfl
@[simp] theorem State.latch_output : (s.latch w).output = s.output := rfl

end

/-! `State.setInput` -/

section
variable (s : State) (rest : List Int)

@[simp] theorem State.setInput_mem : (s.setInput rest).mem = s.mem := rfl
@[simp] theorem State.setInput_acc : (s.setInput rest).acc = s.acc := rfl
@[simp] theorem State.setInput_ic : (s.setInput rest).ic = s.ic := rfl
@[simp] theorem State.setInput_ir : (s.setInput rest).ir = s.ir := rfl
@[simp] theorem State.setInput_opc : (s.setInput rest).opc = s.opc := rfl
@[simp] theorem State.setInput_opd : (s.setInput rest).opd = s.opd := rfl
@[simp] theorem State.setInput_status : (s.setInput rest).status = s.status := rfl
@[simp] theorem State.setInput_phase : (s.setInput rest).phase = s.phase := rfl
@[simp] theorem State.setInput_lc : (s.setInput rest).lc = s.lc := rfl
@[simp] theorem State.setInput_input : (s.setInput rest).input = rest := rfl
@[simp] theorem State.setInput_output : (s.setInput rest).output = s.output := rfl

end

/-! `State.emit` -/

section
variable (s : State) (a : Int) (v : Word)

@[simp] theorem State.emit_mem : (s.emit a v).mem = s.mem := rfl
@[simp] theorem State.emit_acc : (s.emit a v).acc = s.acc := rfl
@[simp] theorem State.emit_ic : (s.emit a v).ic = s.ic := rfl
@[simp] theorem State.emit_ir : (s.emit a v).ir = s.ir := rfl
@[simp] theorem State.emit_opc : (s.emit a v).opc = s.opc := rfl
@[simp] theorem State.emit_opd : (s.emit a v).opd = s.opd := rfl
@[simp] theorem State.emit_status : (s.emit a v).status = s.status := rfl
@[simp] theorem State.emit_phase : (s.emit a v).phase = s.phase := rfl
@[simp] theorem State.emit_lc : (s.emit a v).lc = s.lc := rfl
@[simp] theorem State.emit_input : (s.emit a v).input = s.input := rfl
@[simp] theorem State.emit_output : (s.emit a v).output = s.output ++ [(a, v)] := rfl

end

/-! `State.haltWith` -/

section
variable (s : State) (r : HaltReason)

@[simp] theorem State.haltWith_mem : (s.haltWith r).mem = s.mem := rfl
@[simp] theorem State.haltWith_acc : (s.haltWith r).acc = s.acc := rfl
@[simp] theorem State.haltWith_ic : (s.haltWith r).ic = s.ic := rfl
@[simp] theorem State.haltWith_ir : (s.haltWith r).ir = s.ir := rfl
@[simp] theorem State.haltWith_opc : (s.haltWith r).opc = s.opc := rfl
@[simp] theorem State.haltWith_opd : (s.haltWith r).opd = s.opd := rfl
@[simp] theorem State.haltWith_status : (s.haltWith r).status = .halted r := rfl
@[simp] theorem State.haltWith_phase : (s.haltWith r).phase = s.phase := rfl
@[simp] theorem State.haltWith_lc : (s.haltWith r).lc = s.lc := rfl
@[simp] theorem State.haltWith_input : (s.haltWith r).input = s.input := rfl
@[simp] theorem State.haltWith_output : (s.haltWith r).output = s.output := rfl

end

end Sys2Proof.Machine
end

