-- ==== Sys2Proof/Laws/Environment.lean ====
section
/-! SUPPORT. What the loader's events can do, by the kind of the integer offered and the room left. -/

namespace Sys2Proof.Machine

/-- A Word is no sentinel: the sentinel is out of range. -/
theorem word_ne_sentinel (w : Word) : w.val ≠ Config.sentinel := by
  have h := w.bounds
  have hs : Config.sentinel = -99999 := rfl
  omega

/-- A Word offered while loading is stored, if there is room. -/
theorem loadWord_of_word {s : State} {w : Word} (h : s.phase = .load ∧ s.status = .running) :
    loadWord w.val s = storeLoaded w s := by
  simp only [loadWord, if_pos h, if_neg (word_ne_sentinel w), ofInt?_val]

/-- An integer that is neither a Word nor the sentinel is skipped. -/
theorem loadWord_skipped {s : State} {v : Int} (hv : ¬(-9999 ≤ v ∧ v ≤ 9999)) (hn : v ≠ Config.sentinel) :
    loadWord v s = s := by
  unfold loadWord
  split
  · simp only [ofInt?_eq_none.mpr hv]
  · rfl

/-- Outside the Load phase of a running machine the loader changes nothing. -/
theorem loadWord_refused {s : State} {v : Int} (h : ¬(s.phase = .load ∧ s.status = .running)) :
    loadWord v s = s := if_neg h

theorem start_refused {s : State} (h : ¬(s.phase = .load ∧ s.status = .running)) : start s = s := if_neg h

/-- With room left, the Word goes into the next cell. -/
theorem storeLoaded_of_room {s : State} {w : Word} (h : s.lc ≤ 99) :
    ∃ m, s.mem.write? s.lc w = some m ∧
      storeLoaded w s = { s with mem := m, lc := s.lc + 1 } := by
  have hm := s.mem.write?_of_bounds w (a := s.lc) (by omega) (by omega)
  refine ⟨_, hm, ?_⟩
  unfold storeLoaded
  rw [hm]
  rfl

/-- With no room left, the machine halts without having run. -/
theorem storeLoaded_full {s : State} {w : Word} (h : 100 ≤ s.lc) :
    storeLoaded w s = { s with status := .halted .boundsViolation, phase := .exec } := by
  have hm : s.mem.write? s.lc w = none := s.mem.write?_eq_none.mpr (by omega)
  unfold storeLoaded
  rw [hm]
  rfl

end Sys2Proof.Machine
end

