-- ==== Sys2Proof/Laws/Exec.lean ====
section
/-! SUPPORT. What each shared operation can do, said once, and from these what one Execute and one step can do. A
proof about the machine cites these lemmas and does not unfold the meanings. -/

namespace Sys2Proof.Machine

/-! ## The arithmetic-logic unit -/

theorem validated_eq_ok {t : Int} {r : Word} : validated t = .ok r ↔ r.val = t := by
  rw [← ofInt?_eq_some]; unfold validated; split <;> simp_all

theorem validated_eq_overflow {t : Int} : validated t = .overflow ↔ ¬(-9999 ≤ t ∧ t ≤ 9999) := by
  rw [← ofInt?_eq_none]; unfold validated; split <;> simp_all

theorem validated_ne_divideByZero {t : Int} : validated t ≠ .divideByZero := by
  unfold validated; split <;> simp

theorem alu_pass (a b : Word) : alu .pass a b = .ok b := rfl

theorem alu_div_zero {a b : Word} (h : b.val = 0) : alu .div a b = .divideByZero := if_pos h

theorem alu_div {a b : Word} (h : b.val ≠ 0) :
    alu .div a b = .ok ⟨tdiv a.val b.val, quotient_inRange a b⟩ := if_neg h

/-! ## The shared operations on operands -/

/-- A data read at a good address goes on with the cell's value. -/
theorem withDataRead_of_read {a : Int} {s : State} {b : Word} {go : Word → State} (h : s.mem.read? a = some b) :
    withDataRead a s go = .next (go b) := by
  rw [withDataRead, h]

/-- Everything a data read can do. -/
theorem withDataRead_next {a : Int} {s t : State} {go : Word → State} (h : withDataRead a s go = .next t) :
    (∃ b, s.mem.read? a = some b ∧ t = go b) ∨ (¬(0 ≤ a ∧ a ≤ 99) ∧ t = s.haltWith .boundsViolation) := by
  unfold withDataRead at h
  split at h
  · next b hb => cases h; exact .inl ⟨b, hb, rfl⟩
  · next hb => cases h; exact .inr ⟨s.mem.read?_eq_none.mp hb, rfl⟩

theorem withDataRead_of_bad {a : Int} {s : State} {go : Word → State} (h : ¬(0 ≤ a ∧ a ≤ 99)) :
    withDataRead a s go = .next (s.haltWith .boundsViolation) := by
  rw [withDataRead, s.mem.read?_eq_none.mpr h]

/-- Everything a data write can do. -/
theorem writeCellAndAdvance_next {a : Int} {v : Word} {s t : State} (h : writeCellAndAdvance a v s = .next t) :
    (∃ m, s.mem.write? a v = some m ∧ t = (s.setMem m).advance) ∨
      (¬(0 ≤ a ∧ a ≤ 99) ∧ t = s.haltWith .boundsViolation) := by
  unfold writeCellAndAdvance at h
  split at h
  · next m hm => cases h; exact .inl ⟨m, hm, rfl⟩
  · next hm => cases h; exact .inr ⟨s.mem.write?_eq_none.mp hm, rfl⟩

theorem writeCellAndAdvance_of_write {a : Int} {v : Word} {s : State} {m : Memory}
    (h : s.mem.write? a v = some m) : writeCellAndAdvance a v s = .next (s.setMem m).advance := by
  rw [writeCellAndAdvance, h]

theorem writeCellAndAdvance_of_bad {a : Int} {v : Word} {s : State} (h : ¬(0 ≤ a ∧ a ≤ 99)) :
    writeCellAndAdvance a v s = .next (s.haltWith .boundsViolation) := by
  rw [writeCellAndAdvance, s.mem.write?_eq_none.mpr h]

/-! ## Execute -/

/-- Everything READ can do. -/
theorem execRead_next {a : Int} {s t : State} (h : execRead a s = .next t) :
    (¬(0 ≤ a ∧ a ≤ 99) ∧ t = s.haltWith .boundsViolation) ∨
      ((0 ≤ a ∧ a ≤ 99) ∧ s.input = [] ∧ t = s) ∨
      ((0 ≤ a ∧ a ≤ 99) ∧ ∃ v rest, s.input = v :: rest ∧ ¬(-9999 ≤ v ∧ v ≤ 9999) ∧ t = s.setInput rest) ∨
      ((0 ≤ a ∧ a ≤ 99) ∧ ∃ (w : Word) (rest : List Int) (m : Memory), s.input = w.val :: rest ∧
        s.mem.write? a w = some m ∧ t = ((s.setInput rest).setMem m).advance) := by
  unfold execRead at h
  split at h
  · next hb =>
    have hb := inBounds_iff.mp hb
    split at h
    · next hi => cases h; exact .inr (.inl ⟨hb, hi, rfl⟩)
    · next v rest hi =>
      split at h
      · next w hw =>
        rw [ofInt?_eq_some] at hw
        subst hw
        rcases writeCellAndAdvance_next h with ⟨m, hm, rfl⟩ | ⟨hbad, -⟩
        · exact .inr (.inr (.inr ⟨hb, w, rest, m, hi, hm, rfl⟩))
        · exact absurd hb hbad
      · next hw => cases h; exact .inr (.inr (.inl ⟨hb, v, rest, hi, ofInt?_eq_none.mp hw, rfl⟩))
  · next hb => cases h; exact .inl ⟨fun hc => hb (inBounds_iff.mpr hc), rfl⟩

/-- The ALU operation of an instruction that puts an ALU result into the accumulator. -/
def aluOpOf : Instr → Option AluOp
  | .load _ => some .pass
  | .add _ => some .add
  | .subtract _ => some .sub
  | .divide _ => some .div
  | .multiply _ => some .mul
  | _ => none

theorem exec_of_aluOpOf {i : Instr} {op : AluOp} (h : aluOpOf i = some op) (s : State) :
    exec i s = accumulate op i.operand s := by
  cases i <;> cases h <;> rfl

/-- Everything one Execute can do, by the kind of the instruction. -/
inductive Executed (i : Instr) (s : State) : State → Prop where
  /-- The data address is bad (`20_memory.md` R54). -/
  | badAddress (h : ¬(0 ≤ i.operand ∧ i.operand ≤ 99))
      (hi : i.opcode ≠ 40 ∧ i.opcode ≠ 41 ∧ i.opcode ≠ 42 ∧ i.opcode ≠ 43) :
      Executed i s (s.haltWith .boundsViolation)
  /-- A READ waits. -/
  | waits (hc : i.opcode = 10) (hb : 0 ≤ i.operand ∧ i.operand ≤ 99) (h : s.input = []) : Executed i s s
  /-- A READ rejects its input. -/
  | rejects (v : Int) (rest : List Int) (hc : i.opcode = 10) (hb : 0 ≤ i.operand ∧ i.operand ≤ 99)
      (h : s.input = v :: rest) (hv : ¬(-9999 ≤ v ∧ v ≤ 9999)) : Executed i s (s.setInput rest)
  /-- A READ stores its input. -/
  | accepts (w : Word) (rest : List Int) (m : Memory) (hc : i.opcode = 10) (h : s.input = w.val :: rest)
      (hm : s.mem.write? i.operand w = some m) : Executed i s ((s.setInput rest).setMem m).advance
  /-- WRITE. -/
  | writes (v : Word) (hc : i.opcode = 11) (h : s.mem.read? i.operand = some v) :
      Executed i s (s.emit i.operand v).advance
  /-- STORE. -/
  | stores (m : Memory) (hc : i.opcode = 21) (hm : s.mem.write? i.operand s.acc = some m) :
      Executed i s (s.setMem m).advance
  /-- LOAD, ADD, SUBTRACT, DIVIDE, MULTIPLY: the ALU's result is committed. -/
  | computes (op : AluOp) (b : Word) (hop : aluOpOf i = some op) (h : s.mem.read? i.operand = some b) :
      Executed i s (commitAlu s (alu op s.acc b))
  /-- A branch that is taken. -/
  | jumps (hc : i.opcode = 40 ∨ (i.opcode = 41 ∧ s.acc.val < 0) ∨ (i.opcode = 42 ∧ s.acc.val = 0)) :
      Executed i s (s.jumpTo i.operand)
  /-- A branch that is not taken. -/
  | fallsThrough (hc : (i.opcode = 41 ∧ ¬ s.acc.val < 0) ∨ (i.opcode = 42 ∧ s.acc.val ≠ 0)) :
      Executed i s s.advance
  /-- HALT. -/
  | halts (hc : i.opcode = 43) : Executed i s (s.haltWith .normal)

theorem accumulate_next {i : Instr} {op : AluOp} {s t : State} (hop : aluOpOf i = some op)
    (hi : i.opcode ≠ 40 ∧ i.opcode ≠ 41 ∧ i.opcode ≠ 42 ∧ i.opcode ≠ 43)
    (h : accumulate op i.operand s = .next t) : Executed i s t := by
  rcases withDataRead_next h with ⟨b, hb, rfl⟩ | ⟨hb, rfl⟩
  · exact .computes op b hop hb
  · exact .badAddress hb hi

/-- Everything one Execute can do. -/
theorem exec_next {i : Instr} {s t : State} (h : exec i s = .next t) : Executed i s t := by
  cases i with
  | read a =>
    rcases execRead_next h with ⟨hb, rfl⟩ | ⟨hb, hi, rfl⟩ | ⟨hb, v, rest, hi, hv, rfl⟩ | ⟨hb, w, rest, m, hi, hm, rfl⟩
    · exact .badAddress hb (by simp [Instr.opcode])
    · exact .waits rfl hb hi
    · exact .rejects v rest rfl hb hi hv
    · exact .accepts w rest m rfl hi hm
  | write a =>
    rcases withDataRead_next h with ⟨b, hb, rfl⟩ | ⟨hb, rfl⟩
    · exact .writes b rfl hb
    · exact .badAddress hb (by simp [Instr.opcode])
  | store a =>
    rcases writeCellAndAdvance_next h with ⟨m, hm, rfl⟩ | ⟨hb, rfl⟩
    · exact .stores m rfl hm
    · exact .badAddress hb (by simp [Instr.opcode])
  | load a => exact accumulate_next rfl (by simp [Instr.opcode]) h
  | add a => exact accumulate_next rfl (by simp [Instr.opcode]) h
  | subtract a => exact accumulate_next rfl (by simp [Instr.opcode]) h
  | divide a => exact accumulate_next rfl (by simp [Instr.opcode]) h
  | multiply a => exact accumulate_next rfl (by simp [Instr.opcode]) h
  | branch a => cases h; exact .jumps (.inl rfl)
  | branchneg a =>
    by_cases hc : s.acc.val < 0
    · simp only [exec, execBranchneg, branchWhen, accNegative, hc, decide_true, if_true] at h
      cases h; exact .jumps (.inr (.inl ⟨rfl, hc⟩))
    · simp [exec, execBranchneg, branchWhen, accNegative, hc] at h
      cases h; exact .fallsThrough (.inl ⟨rfl, hc⟩)
  | branchzero a =>
    by_cases hc : s.acc.val = 0
    · simp only [exec, execBranchzero, branchWhen, accZero, hc, decide_true, if_true] at h
      cases h; exact .jumps (.inr (.inr ⟨rfl, hc⟩))
    · simp [exec, execBranchzero, branchWhen, accZero, hc] at h
      cases h; exact .fallsThrough (.inr ⟨rfl, hc⟩)
  | halt x => cases h; exact .halts rfl

/-- Which instruction holds, and when. -/
theorem holds_iff {i : Instr} {s : State} : holds i s = true ↔
    i.opcode = 10 ∧ ∀ v ∈ s.input.head?, ¬(-9999 ≤ v ∧ v ≤ 9999) := by
  cases i <;> simp only [holds, Instr.opcode] <;> simp
  cases s.input with
  | nil => simp
  | cons v l => simp; rw [← Bool.not_eq_true, inRange_iff]; omega

/-- No Execute writes the instruction registers: only the fetch does (`10_state.md` R31). -/
theorem Executed.instructionRegisters {i : Instr} {s u : State} (h : Executed i s u) :
    u.ir = s.ir ∧ u.opc = s.opc ∧ u.opd = s.opd := by
  cases h with
  | computes op b _ _ => cases alu op s.acc b <;> exact ⟨rfl, rfl, rfl⟩
  | _ => exact ⟨rfl, rfl, rfl⟩

theorem withDataRead_total (a : Int) (s : State) (go : Word → State) : ∃ t, withDataRead a s go = .next t := by
  unfold withDataRead; split <;> exact ⟨_, rfl⟩

theorem writeCellAndAdvance_total (a : Int) (v : Word) (s : State) :
    ∃ t, writeCellAndAdvance a v s = .next t := by
  unfold writeCellAndAdvance; split <;> exact ⟨_, rfl⟩

/-- Every instruction answers a next state, whatever the state. -/
theorem exec_total (i : Instr) (s : State) : ∃ t, exec i s = .next t := by
  cases i with
  | read a =>
    change ∃ t, execRead a s = .next t
    unfold execRead
    split
    · split
      · exact ⟨_, rfl⟩
      · split
        · exact writeCellAndAdvance_total _ _ _
        · exact ⟨_, rfl⟩
    · exact ⟨_, rfl⟩
  | store a => exact writeCellAndAdvance_total _ _ _
  | branch a => exact ⟨_, rfl⟩
  | branchneg a => exact ⟨_, rfl⟩
  | branchzero a => exact ⟨_, rfl⟩
  | halt x => exact ⟨_, rfl⟩
  | _ => exact withDataRead_total _ _ _

/-- The three ways an ALU result is committed. -/
theorem commitAlu_cases (s : State) (x : AluResult) :
    (∃ r, x = .ok r ∧ commitAlu s x = (s.setAcc r).advance) ∨
      (x = .overflow ∧ commitAlu s x = s.haltWith .overflow) ∨
      (x = .divideByZero ∧ commitAlu s x = s.haltWith .divideByZero) := by
  cases x with
  | ok r => exact .inl ⟨r, rfl, rfl⟩
  | overflow => exact .inr (.inl ⟨rfl, rfl⟩)
  | divideByZero => exact .inr (.inr ⟨rfl, rfl⟩)

/-! ## Fetch and the step -/

theorem fetch_of_read {s : State} {w : Word} (h : s.mem.read? s.ic = some w) : s.fetch = s.latch w := by
  rw [State.fetch, h]

theorem fetch_of_bad {s : State} (h : ¬(0 ≤ s.ic ∧ s.ic ≤ 99)) : s.fetch = s.haltWith .boundsViolation := by
  rw [State.fetch, s.mem.read?_eq_none.mpr h]

/-- Everything a fetch can do. -/
theorem fetch_cases (s : State) :
    (∃ w, s.mem.read? s.ic = some w ∧ s.fetch = s.latch w) ∨
      (¬(0 ≤ s.ic ∧ s.ic ≤ 99) ∧ s.fetch = s.haltWith .boundsViolation) := by
  cases h : s.mem.read? s.ic with
  | some w => exact .inl ⟨w, rfl, fetch_of_read h⟩
  | none => exact .inr ⟨s.mem.read?_eq_none.mp h, fetch_of_bad (s.mem.read?_eq_none.mp h)⟩

/-- A READ at a good address waits exactly when nothing is offered. -/
theorem waitsForInput_iff {s : State} : waitsForInput s = true ↔
    s.phase = .exec ∧ s.status = .running ∧ s.opc.val = 10 ∧ (0 ≤ s.opd.val ∧ s.opd.val ≤ 99) ∧ s.input = [] := by
  simp [waitsForInput, inputRequested, inBounds_iff, and_assoc]

/-- When a step is enabled. -/
theorem stepEnabled_iff {s : State} : stepEnabled s = true ↔
    s.phase = .exec ∧ s.status = .running ∧ waitsForInput s = false := by
  simp [stepEnabled, and_assoc]

theorem step_enabled {s : State} (h : stepEnabled s = true) : step s = stepExec s := by
  simp [step, engineStep, (stepEnabled_iff.mp h).2.1, h]

/-- A running machine with no step enabled waits. -/
theorem step_disabled {s : State} (hs : s.status = .running) (h : stepEnabled s = false) : step s = .next s := by
  simp [step, engineStep, hs, h]

theorem step_load {s : State} (hp : s.phase = .load) (hs : s.status = .running) : step s = .next s :=
  step_disabled hs (by simp [stepEnabled, hp])

theorem step_halted {s : State} {r : HaltReason} (hs : s.status = .halted r) : step s = .fault (.halted r) := by
  simp [step, engineStep, hs]

/-- A step in the Exec phase whose operation code is one of the twelve: Execute, then the fetch if one follows. -/
theorem stepExec_ok {s : State} {i : Instr} {t : State} (hd : decodeFields s.opc.val s.opd.val = .ok i)
    (ht : exec i s = .next t) :
    stepExec s = .next (if t.status = .running && !holds i s then t.fetch else t) := by
  simp only [stepExec, hd, ht, settle]

/-- Execute of a waiting READ, without a fetch, changes nothing. -/
theorem stepExec_of_waits {s : State} (h : waitsForInput s = true) : stepExec s = .next s := by
  obtain ⟨-, -, hc, hb, hi⟩ := waitsForInput_iff.mp h
  have ht : exec (.read s.opd.val) s = .next s := by
    change execRead s.opd.val s = .next s
    simp only [execRead, inBounds_iff.mpr hb, if_true, hi]
  rw [stepExec_ok (i := .read s.opd.val) (decodeFields_eq_ok.mpr ⟨hc.symm, rfl⟩) ht]
  simp [holds, hi]

/-- The step of a running machine in the Exec phase is `stepExec`, a waiting READ among them. -/
theorem step_exec {s : State} (hp : s.phase = .exec) (hs : s.status = .running) : step s = stepExec s := by
  cases h : waitsForInput s with
  | true => rw [stepExec_of_waits h, step_disabled hs (by simp [stepEnabled, h])]
  | false => exact step_enabled (stepEnabled_iff.mpr ⟨hp, hs, h⟩)

theorem stepExec_error {s : State} {e : DecodeError} (hd : decodeFields s.opc.val s.opd.val = .error e) :
    stepExec s = .next (s.haltWith .invalidOpcode) := by
  simp only [stepExec, hd]

/-- A run begins with its first step. -/
theorem run_succ {s t : State} {n : Nat} (h : step s = .next t) :
    Host.Core.run core (n + 1) s = Host.Core.run core n t := by
  have h' : core.step s = .next t := h
  simp only [Host.Core.run, h']

theorem run_zero (s : State) : Host.Core.run core 0 s = .next s := rfl

/-- Everything a step can do. -/
theorem step_next {s t : State} (h : step s = .next t) :
    (s.status = .running ∧ s.phase = .load ∧ t = s) ∨
      (s.status = .running ∧ s.phase = .exec ∧
        ((∃ e, decodeFields s.opc.val s.opd.val = .error e ∧ t = s.haltWith .invalidOpcode) ∨
          ∃ i u, decodeFields s.opc.val s.opd.val = .ok i ∧ exec i s = .next u ∧ Executed i s u ∧
            t = if u.status = .running && !holds i s then u.fetch else u)) := by
  cases hs : s.status with
  | halted r => rw [step_halted hs] at h; cases h
  | running =>
    cases hp : s.phase with
    | load => rw [step_load hp hs] at h; cases h; exact .inl ⟨rfl, rfl, rfl⟩
    | exec =>
      refine .inr ⟨rfl, rfl, ?_⟩
      rw [step_exec hp hs] at h
      cases hd : decodeFields s.opc.val s.opd.val with
      | error e => rw [stepExec_error hd] at h; cases h; exact .inl ⟨e, rfl, rfl⟩
      | ok i =>
        obtain ⟨u, hu⟩ := exec_total i s
        rw [stepExec_ok hd hu] at h
        cases h
        exact .inr ⟨i, u, rfl, hu, exec_next hu, rfl⟩

end Sys2Proof.Machine
end

