-- ==== Sys2Proof/Laws/PerInstr.lean ====
section
/-! SUPPORT. One family of facts about the instruction as it is written, constructor by constructor: each row of the
opcode map has its own hundred of words (`30_encoding.md` R84, R93). -/

namespace Sys2Proof.Laws.EncodesInItsHundred

/-- A well-formed instruction has a word, it is a hundred times the operation code plus the operand, and it lies within
the hundred of its row, among the words 1000 to 4399. -/
def Statement (i : Instr) : Prop :=
  i.wellFormed = true → ∃ w, encode i = some w ∧ w.val = 100 * i.opcode + i.operand ∧
    100 * i.opcode ≤ w.val ∧ w.val ≤ 100 * i.opcode + 99 ∧ 1000 ≤ w.val ∧ w.val ≤ 4399

/-- What the twelve lemmas share. -/
theorem statement_holds (i : Instr) : Statement i := by
  intro h
  have ho := operandOk_iff.mp h
  have hc := opcode_bounds i
  have hw : inRange (100 * i.opcode + i.operand) = true := inRange_iff.mpr (by omega)
  exact ⟨⟨100 * i.opcode + i.operand, hw⟩, by rw [encode, if_pos h]; exact dif_pos hw, rfl,
    by dsimp only; omega, by dsimp only; omega, by dsimp only; omega, by dsimp only; omega⟩

theorem read (a : Int) : Statement (.read a) := statement_holds _

theorem write (a : Int) : Statement (.write a) := statement_holds _

theorem load (a : Int) : Statement (.load a) := statement_holds _

theorem store (a : Int) : Statement (.store a) := statement_holds _

theorem add (a : Int) : Statement (.add a) := statement_holds _

theorem subtract (a : Int) : Statement (.subtract a) := statement_holds _

theorem divide (a : Int) : Statement (.divide a) := statement_holds _

theorem multiply (a : Int) : Statement (.multiply a) := statement_holds _

theorem branch (a : Int) : Statement (.branch a) := statement_holds _

theorem branchneg (a : Int) : Statement (.branchneg a) := statement_holds _

theorem branchzero (a : Int) : Statement (.branchzero a) := statement_holds _

theorem halt (a : Int) : Statement (.halt a) := statement_holds _

end Sys2Proof.Laws.EncodesInItsHundred
end

