-- ==== Sys2Proof/Tests/Slice0.lean ====
section
/-! SUPPORT. The model's own tests: the well-formedness check, words written out from the spec's encoding, one step per
instruction with the expected result taken from `spec/95_test_vectors.md` or worked out by hand, and, for every
statement with hypotheses, a witness that meets them. -/

namespace Sys2Proof.Tests

open Sys2Proof Sys2Proof.Machine

/-! ## Helpers -/

/-- The Word of a number in range. -/
def word (v : Int) : Word := (Word.ofInt? v).getD Word.zero

/-- A running machine at an instruction boundary: the word at `ic` has been fetched. -/
def boundary (cells : List (Nat × Int)) (ic acc : Int) (offered : List Int) : State :=
  { State.reset with mem := ⟨cells.map fun c => (c.1, word c.2)⟩
                     acc := word acc
                     ic := ic
                     phase := .exec
                     input := offered : State }.fetch

/-- A machine in the Load phase with `n` cells loaded, each with HALT. -/
def loading (n : Nat) : State :=
  { State.reset with mem := ⟨(List.range n).map fun a => (a, word 4300)⟩
                     lc := n }

/-- A machine that has executed HALT. -/
def halted : State := (boundary [(0, 4300)] 0 7 []).haltWith .normal

/-- A machine whose registers are coupled but which stands at no program: it is about to execute the word `w`. -/
def about (w : Int) : State := { State.reset with phase := .exec : State }.latch (word w)

/-- Something about the next state. -/
def answer {α : Type} (f : State → α) : Host.Outcome State Fault Refusal → Option α
  | .next t => some (f t)
  | .fault _ => none
  | .refused _ => none

/-- The instruction a number decodes to. -/
def decoded (v : Int) : Option Instr :=
  match decode (word v) with
  | .ok i => some i
  | .error _ => none

/-! ## Well-formedness: one ill-formed term on each side of the operand's range -/

theorem test_operand_below_refused : (Instr.load (-1)).wellFormed = false := by decide

theorem test_operand_above_refused : (Instr.branch 100).wellFormed = false := by decide

theorem test_ill_formed_has_no_word : encode (.load (-1)) = none ∧ encode (.halt 100) = none := by decide

theorem test_operand_99_accepted : (Instr.store 99).wellFormed = true ∧ (Instr.read 0).wellFormed = true := by decide

/-! ## Decoding: words from `30_encoding.md` R84 and R93 and `95_test_vectors.md` section 2.2 -/

theorem test_decode_read : decoded 1009 = some (.read 9) ∧ decoded 1099 = some (.read 99) := by decide

theorem test_decode_write : decoded 1109 = some (.write 9) := by decide

theorem test_decode_load : decoded 2009 = some (.load 9) := by decide

theorem test_decode_store : decoded 2109 = some (.store 9) := by decide

theorem test_decode_add : decoded 3010 = some (.add 10) := by decide

theorem test_decode_subtract : decoded 3110 = some (.subtract 10) := by decide

theorem test_decode_divide : decoded 3209 = some (.divide 9) := by decide

theorem test_decode_multiply : decoded 3304 = some (.multiply 4) := by decide

theorem test_decode_branch : decoded 4099 = some (.branch 99) := by decide

theorem test_decode_branchneg : decoded 4107 = some (.branchneg 7) := by decide

theorem test_decode_branchzero : decoded 4210 = some (.branchzero 10) := by decide

theorem test_decode_halt : decoded 4377 = some (.halt 77) := by decide

theorem test_decode_refuses_by_name :
    decode (word 1250) = .error (.undefinedOpcode 12) ∧ decode (word (-1009)) = .error (.undefinedOpcode (-10)) ∧
      decodeCarrier 12000 = .error (.illegalCarrier 12000) := ⟨rfl, rfl, rfl⟩

/-- The host's entry points, on READ 09, HALT 99 and a code that is no Word. -/
theorem test_host_words :
    decodeTableWord 16 0x03F1 = some (.read 9) ∧ decodeTableWord 16 0x112F = some (.halt 99) ∧
      decodeTableWord 16 0x2710 = none := by decide

/-- ADD placed as the first instruction after reset is run by the next step: `acc` takes 0 + 3000, its own cell's
value. -/
theorem test_placed_word_runs :
    answer (fun t => (t.acc.val, t.ic)) (step (State.reset.withFetchWord 16 3000)) = some (3000, 1) := by decide

/-! ## One step of each instruction -/

/-- IO1: the value is stored and the counter advances. -/
theorem test_read_accepts :
    answer (fun t => (t.mem.read? 5, t.ic, t.input)) (step (boundary [(0, 1005), (1, 4300)] 0 0 [42, 1]))
      = some (some (word 42), 1, [1]) := by decide

/-- IO2: 10000 is discarded. -/
theorem test_read_rejects :
    answer (fun t => (t.mem.read? 5, t.ic, t.input)) (step (boundary [(0, 1005), (1, 4300)] 0 0 [10000, 9999]))
      = some (some (word 0), 0, [9999]) := by decide

/-- IO8. -/
theorem test_write_emits :
    answer (fun t => (t.output, t.ic)) (step (boundary [(0, 1103), (3, -77)] 0 0 []))
      = some ([(3, word (-77))], 1) := by decide

/-- LS6: address 99 is an ordinary cell. -/
theorem test_load :
    answer (fun t => (t.acc.val, t.ic)) (step (boundary [(0, 2099), (99, 17)] 0 0 [])) = some (17, 1) := by decide

/-- LS4: a store to its own cell completes. -/
theorem test_store :
    answer (fun t => (t.mem.read? 1, t.ic, t.acc.val)) (step (boundary [(1, 2101), (2, 4300)] 1 4300 []))
      = some (some (word 4300), 2, 4300) := by decide

/-- A2 and A3. -/
theorem test_add :
    answer (fun t => (t.acc.val, t.status)) (step (boundary [(1, 3004), (4, 1)] 1 9998 []))
      = some (9999, .running) ∧
    answer (fun t => (t.acc.val, t.ic, t.status)) (step (boundary [(1, 3004), (4, 1)] 1 9999 []))
      = some (9999, 1, .halted .overflow) := by decide

/-- A8: the accumulator is the left operand. A9. -/
theorem test_subtract :
    answer (fun t => t.acc.val) (step (boundary [(1, 3104), (4, 5)] 1 3 [])) = some (-2) ∧
    answer (fun t => t.status) (step (boundary [(1, 3104), (4, 1)] 1 (-9999) [])) = some (.halted .overflow) := by
  decide

/-- A23: toward zero. A29. -/
theorem test_divide :
    answer (fun t => t.acc.val) (step (boundary [(1, 3204), (4, 2)] 1 (-7) [])) = some (-3) ∧
    answer (fun t => (t.acc.val, t.ic, t.status)) (step (boundary [(1, 3204)] 1 7 []))
      = some (7, 1, .halted .divideByZero) := by decide

/-- A16 and A14. -/
theorem test_multiply :
    answer (fun t => t.acc.val) (step (boundary [(1, 3304), (4, -3)] 1 3333 [])) = some (-9999) ∧
    answer (fun t => (t.acc.val, t.status)) (step (boundary [(1, 3304), (4, 100)] 1 100 []))
      = some (100, .halted .overflow) := by decide

/-- B1: the target's word is fetched. -/
theorem test_branch :
    answer (fun t => (t.ic, t.ir.val)) (step (boundary [(0, 4002), (1, 9900), (2, 4300)] 0 0 []))
      = some (2, 4300) := by decide

/-- S5: taken below zero, not at zero. -/
theorem test_branchneg :
    answer (fun t => t.ic) (step (boundary [(1, 4104)] 1 (-5) [])) = some 4 ∧
    answer (fun t => t.ic) (step (boundary [(1, 4104)] 1 0 [])) = some 2 := by decide

/-- S6. -/
theorem test_branchzero :
    answer (fun t => t.ic) (step (boundary [(1, 4204)] 1 0 [])) = some 4 ∧
    answer (fun t => t.ic) (step (boundary [(1, 4204)] 1 3 [])) = some 2 := by decide

/-- B6: the operand is ignored, and nothing is fetched after it, even at address 99 (X2). -/
theorem test_halt :
    answer (fun t => (t.ic, t.opd.val, t.status)) (step (boundary [(99, 4377)] 99 0 []))
      = some (99, 77, .halted .normal) := by decide

/-- S7. -/
theorem test_invalid_opcode :
    answer (fun t => (t.ic, t.ir.val, t.status)) (step (boundary [(0, 9900)] 0 0 []))
      = some (0, 9900, .halted .invalidOpcode) := by decide

/-- X4: ADD at 99 completes, then the fetch at 100 fails. -/
theorem test_falls_off_memory :
    answer (fun t => (t.acc.val, t.ic, t.ir.val, t.status)) (step (boundary [(97, 1), (99, 3097)] 99 1 []))
      = some (2, 100, 3097, .halted .boundsViolation) := by decide

/-- IO4: a READ with nothing offered waits, and the machine has no step until a value comes. -/
theorem test_read_waits :
    waitsForInput (boundary [(0, 1005)] 0 0 []) = true ∧ stepEnabled (boundary [(0, 1005)] 0 0 []) = false ∧
      answer (fun t => (t.ic, t.ir.val, t.status)) (step (boundary [(0, 1005)] 0 0 [])) = some (0, 1005, .running) ∧
      stepEnabled (boundary [(0, 1005)] 0 0 [10000]) = true := by decide

/-- The codes of `60_exceptions.md` R181, in the table's order. -/
theorem test_halt_reason_codes :
    [HaltReason.normal, .invalidOpcode, .overflow, .divideByZero, .boundsViolation].map HaltReason.code
      = [0, 1, 2, 3, 4] := by decide

/-! ## Witnesses of the statements' hypotheses, at boundary values -/

theorem witness_DecodeOfEncode : (Instr.read 0).wellFormed = true ∧ (Instr.halt 99).wellFormed = true := by decide

theorem witness_EncodeOfDecode : decode (word 1000) = .ok (.read 0) ∧ decode (word 4399) = .ok (.halt 99) :=
  ⟨rfl, rfl⟩

/-- Each side of every gap. -/
theorem witness_DecodeMatchesOpcodeMap_InvalidWordsAreTheGaps :
    [-9999, 999, 1200, 1999, 2200, 2999, 3400, 3999, 4400, 9999].map decoded = List.replicate 10 none ∧
      [1000, 1199, 2000, 2199, 3000, 3399, 4000, 4399].map decoded
        = [some (.read 0), some (.write 99), some (.load 0), some (.store 99), some (.add 0),
            some (.multiply 99), some (.branch 0), some (.halt 99)] := by decide

theorem witness_FieldsTruncateTowardZero : (word (-1)).val = -1 ∧ (word (-9999)).val = -9999 := by decide

/-- The smallest and the greatest Word, and the first and the last code that is none. -/
theorem witness_CarrierHoldsExactlyTheWords :
    (word (-9999)).toCarrier = 0xD8F1 ∧ (word 9999).toCarrier = 0x270F ∧
      Word.ofCarrier? 0x2710 = none ∧ Word.ofCarrier? 0xD8F0 = none := by decide

/-- Addresses 0 and 99 for READ's three cases: an accepted value at each end of the range, a rejected one just outside,
and no value. -/
theorem witness_ReadAcceptsRejectsOrWaits :
    (boundary [(0, 1000)] 0 0 [-9999]).mem.wf = true ∧
      (boundary [(0, 1000)] 0 0 [-9999]).input = (word (-9999)).val :: [] ∧
      (boundary [(0, 1099)] 0 0 [9999, 3]).mem.wf = true ∧
      (boundary [(0, 1099)] 0 0 [9999, 3]).input = (word 9999).val :: [3] ∧
      (boundary [(0, 1099)] 0 0 [10000]).input = 10000 :: [] ∧ ¬(-9999 ≤ (10000 : Int) ∧ (10000 : Int) ≤ 9999) ∧
      (boundary [(0, 1000)] 0 0 []).input = [] := by decide

/-- The addresses 0 and 99, at which WRITE and LOAD complete, and -1 and 100, at which they do not. -/
theorem witness_WriteEmitsItsCell_LoadTakesTheCell :
    (0 : Int) ≤ 0 ∧ (99 : Int) ≤ 99 ∧ State.reset.mem.read? 99 = some (word 0) ∧
      ¬(0 ≤ (-1 : Int) ∧ (-1 : Int) ≤ 99) ∧ ¬(0 ≤ (100 : Int) ∧ (100 : Int) ≤ 99) := by decide

theorem witness_StoreWritesTheCell : (boundary [(0, 2199), (99, 3)] 0 (-5) []).mem.wf = true := by decide

theorem witness_RejectedInputsAreOnlyConsumed :
    (∀ s ∈ [offerInput 10000 (offerInput (-10000) (about 1000)), offerInput 10000 (offerInput (-10000) (about 1099))],
      s.phase = .exec ∧ s.status = .running ∧ s.opc.val = 10 ∧ 0 ≤ s.opd.val ∧ s.opd.val ≤ 99 ∧
        s.input = [-10000, 10000] ++ []) ∧
      (∀ v ∈ [(-10000 : Int), 10000], ¬(-9999 ≤ v ∧ v ≤ 9999)) := by decide

/-- Both round trips, with `ic` at 98 and at 0 and the cell at 99 and at 0. -/
theorem witness_LoadStoreRoundTrip :
    (∀ s ∈ [boundary [(0, 3), (98, 2000), (99, 2100)] 98 0 [], boundary [(0, 2199), (1, 2099)] 0 5 []],
      CoreInvariant s ∧ s.phase = .exec ∧ s.status = .running ∧ s.ic ≤ 98) ∧
      (boundary [(0, 3), (98, 2000), (99, 2100)] 98 0 []).mem.read? 98 = some (word 2000) ∧
      (boundary [(0, 3), (98, 2000), (99, 2100)] 98 0 []).mem.read? 99 = some (word 2100) ∧
      (boundary [(0, 2199), (1, 2099)] 0 5 []).mem.read? 0 = some (word 2199) ∧
      (boundary [(0, 2199), (1, 2099)] 0 5 []).mem.read? 1 = some (word 2099) ∧ (99 : Int) ≠ 0 + 1 := by decide

/-- STORE and READ to the next address, at the first and at the last boundary. -/
theorem witness_StoredWordIsFetchedNext :
    (∀ s ∈ [boundary [(0, 2101)] 0 4300 [], boundary [(98, 2199)] 98 4300 [], boundary [(0, 1001)] 0 0 [4300],
        boundary [(98, 1099)] 98 0 [4300]],
      CoreInvariant s ∧ s.phase = .exec ∧ s.status = .running ∧ s.opd.val = s.ic + 1) ∧
      (boundary [(98, 2199)] 98 4300 []).opc.val = 21 ∧ (boundary [(98, 1099)] 98 0 [4300]).opc.val = 10 ∧
      (boundary [(98, 1099)] 98 0 [4300]).input = (word 4300).val :: [] := by decide

theorem witness_AluIsExactOrRefuses :
    alu .add (word 9998) (word 1) = .ok (word 9999) ∧ alu .sub (word (-9999)) (word 1) = .overflow ∧
      alu .mul (word 3333) (word (-3)) = .ok (word (-9999)) ∧ alu .div (word 8) (word 4) = .ok (word 2) ∧
      (word 4).val ∣ (word 8).val ∧ alu .div (word 0) (word 0) = .divideByZero := by decide

/-- For each of the three operations an exact result at the end of the range, and one just outside. -/
theorem witness_AddSubtractMultiplyAreOverflowChecked :
    (word 9999).val = (word 9998).val + (word 1).val ∧ ¬((word 9999).val + (word 1).val ≤ 9999) ∧
      (word (-9999)).val = (word (-9998)).val - (word 1).val ∧ ¬(-9999 ≤ (word (-9999)).val - (word 1).val) ∧
      (word 9999).val = (word 99).val * (word 101).val ∧ ¬((word 100).val * (word 100).val ≤ 9999) := by decide

theorem witness_DivideTakesTheTruncatedQuotient :
    (boundary [(0, 3299), (99, -1)] 0 9999 []).mem.read? 99 = some (word (-1)) ∧ (word (-1)).val ≠ 0 := by decide

/-- A divisor 0 and, with the accumulator 0, a divisor that is not 0. -/
theorem witness_DivideByZeroHalts :
    (about 3299).mem.read? 99 = some (word 0) ∧ (word 0).val = 0 ∧ (about 3299).phase = .exec ∧
      (about 3299).status = .running ∧ (about 3299).opc.val = 32 ∧ (about 3299).opd.val = 99 ∧
      (boundary [(0, 3200)] 0 0 []).mem.read? 0 = some (word 3200) ∧ (word 3200).val ≠ 0 ∧
      (boundary [(0, 3200)] 0 0 []).acc = Word.zero := by decide

theorem witness_BranchSetsTheCounter :
    (about 4099).phase = .exec ∧ (about 4099).status = .running ∧ (about 4099).opc.val = 40 ∧
      (about 4099).mem.read? (about 4099).opd.val = some (word 0) := by decide

/-- The accumulator just below zero, at zero and just above. -/
theorem witness_BranchnegTestsTheSign_BranchzeroTestsZero :
    (boundary [] 0 (-1) []).acc.val < 0 ∧ 0 ≤ (boundary [] 0 0 []).acc.val ∧ (boundary [] 0 0 []).acc.val = 0 ∧
      (boundary [] 0 1 []).acc.val ≠ 0 ∧ 0 ≤ (boundary [] 0 1 []).acc.val := by decide

theorem witness_BranchToItselfChangesNothing :
    CoreInvariant (boundary [(99, 4099)] 99 0 []) ∧ (boundary [(99, 4099)] 99 0 []).phase = .exec ∧
      (boundary [(99, 4099)] 99 0 []).status = .running ∧ (boundary [(99, 4099)] 99 0 []).opc.val = 40 ∧
      (boundary [(99, 4099)] 99 0 []).opd.val = 99 := by decide

theorem witness_HaltSetsOnlyTheStatus :
    (about 4300).phase = .exec ∧ (about 4300).status = .running ∧ (about 4300).opc.val = 43 ∧
      (about 4399).opc.val = 43 := by decide

/-- Operation codes on either side of the twelve, and below zero. -/
theorem witness_UndefinedOpcodeHalts :
    (about 999).phase = .exec ∧ (about 999).status = .running ∧
      (∀ v ∈ [(-9999 : Int), 0, 999, 1200, 1999, 2200, 2999, 3400, 3999, 4400, 9999],
        (about v).opc.val ∉ [(10 : Int), 11, 20, 21, 30, 31, 32, 33, 40, 41, 42, 43]) := by decide

/-- The counter at 0 and 99, where a word is latched, and at 100 and -1, where only the status changes. -/
theorem witness_FetchLatchesTheWordAtTheCounter :
    (boundary [] 0 0 []).ic = 0 ∧ (boundary [(99, 4300)] 99 0 []).ir = word 4300 ∧
      (boundary [] 100 0 []).status = .halted .boundsViolation ∧
      (boundary [] (-1) 0 []).status = .halted .boundsViolation := by decide

/-- The cases of the step: an undefined operation code, a halt, a held READ, a waiting READ, and an instruction that
advances. -/
theorem witness_StepIsExecuteThenFetch :
    decodeFields (about 4400).opc.val (about 4400).opd.val = .error (.undefinedOpcode 44) ∧
      exec (.halt 99) (about 4399) = .next ((about 4399).haltWith .normal) ∧
      exec (.read 0) (offerInput 10000 (about 1000)) = .next (about 1000) ∧
      exec (.read 99) (about 1099) = .next (about 1099) ∧
      exec (.load 0) (about 2000) = .next (about 2000).advance := ⟨rfl, rfl, rfl, rfl, rfl⟩

/-- Enabled: READ with a value offered, READ at an address that is out of bounds, another instruction with none offered.
Not enabled: the Load phase, a READ with nothing offered at each end of the addresses, a halted machine. -/
theorem witness_StepIsEnabledExactlyWhen :
    stepEnabled (offerInput 10000 (about 1000)) = true ∧ stepEnabled (about 1100) = true ∧
      stepEnabled { about 1000 with opd := word 100 : State } = true ∧
      State.reset.status = .running ∧ stepEnabled State.reset = false ∧
      (about 1000).status = .running ∧ stepEnabled (about 1000) = false ∧ stepEnabled (about 1099) = false ∧
      halted.status = .halted .normal ∧ stepEnabled halted = false := by decide

theorem witness_StepRunsTheInstructionAtTheCounter :
    CoreInvariant (boundary [(99, 2000)] 99 0 []) ∧ (boundary [(99, 2000)] 99 0 []).phase = .exec ∧
      (boundary [(99, 2000)] 99 0 []).status = .running ∧
      (boundary [(99, 2000)] 99 0 []).mem.read? 99 = some (word 2000) ∧ decoded 2000 = some (.load 0) := by decide

theorem witness_NoStepOutsideARun_RunningMachineAlwaysSteps :
    State.reset.status = .running ∧ State.reset.phase = .load ∧ halted.status = .halted .normal := by decide

/-- A run that ends for each reason: in each, the state meets the premises and the step is a next state with that
status. -/
theorem witness_HaltReasonsExactlyWhen_HaltingIsPrecise :
    (∀ s ∈ [boundary [(99, 4300)] 99 0 [], boundary [(0, 4400)] 0 0 [], boundary [(0, 3001), (1, 1)] 0 9999 [],
        boundary [(0, 3201)] 0 0 [], boundary [(99, 2000)] 99 0 []],
      CoreInvariant s ∧ s.phase = .exec ∧ s.status = .running) ∧
    [boundary [(99, 4300)] 99 0 [], boundary [(0, 4400)] 0 0 [], boundary [(0, 3001), (1, 1)] 0 9999 [],
        boundary [(0, 3201)] 0 0 [], boundary [(99, 2000)] 99 0 []].map (fun s => answer (·.status) (step s))
      = [some (.halted .normal), some (.halted .invalidOpcode), some (.halted .overflow),
          some (.halted .divideByZero), some (.halted .boundsViolation)] := by decide

/-- One state for each way the counter moves, with what it is after the step. -/
theorem witness_ControlTableBoundsTheStep :
    [boundary [(0, 1005)] 0 0 [7], boundary [(0, 1005)] 0 0 [10000], boundary [(0, 2105)] 0 0 [],
        boundary [(0, 4005)] 0 0 [], boundary [(0, 4105)] 0 (-1) [], boundary [(0, 4205)] 0 1 [],
        boundary [(0, 4305)] 0 0 []].map
      (fun s => ((controls (decodeFields s.opc.val s.opd.val)).counter, answer (·.ic) (step s)))
      = [(.plusOneIfAccepted, some 1), (.plusOneIfAccepted, some 0), (.plusOne, some 1), (.target, some 5),
          (.targetIfNegative, some 5), (.targetIfZero, some 1), (.hold, some 0)] := by decide

/-- The instruction registers: a stop, a hold, a fetch past address 99, and a fetch of the next word. -/
theorem witness_ControlTableBoundsTheStep_instructionRegisters :
    [boundary [(0, 4305), (1, 7)] 0 0 [], boundary [(0, 1005), (1, 7)] 0 0 [10000], boundary [(99, 2000)] 99 0 [],
        boundary [(0, 2105), (1, 7)] 0 0 []].map (fun s => answer (fun t => (t.status, t.ir.val)) (step s))
      = [some (.halted .normal, 4305), some (.running, 1005), some (.halted .boundsViolation, 2000),
          some (.running, 7)] := by decide

/-- A step that emits and one that does not. -/
theorem witness_OutputNeverFeedsBack :
    answer (·.output) (step (boundary [(0, 1100)] 0 0 [])) = some [(0, word 1100)] ∧
      answer (·.output) (step (boundary [(0, 2000)] 0 0 [])) = some [] := by decide

/-- A READ with one value offered, and another instruction with none. -/
theorem witness_UnreadInputStaysInOrder :
    ((boundary [(0, 1000)] 0 0 [7]).input ≠ [] ∨ (boundary [(0, 1000)] 0 0 [7]).opc.val ≠ 10) ∧
      answer (·.input) (step (boundary [(0, 1000)] 0 0 [7])) = some [] ∧
      (boundary [(0, 2000)] 0 0 []).opc.val ≠ 10 ∧
      answer (·.input) (step (boundary [(0, 2000)] 0 0 [])) = some [] := by decide

/-- A run of one step to a halted state, which both machines reach. -/
theorem witness_FetchFirstCycleHaltsAlike :
    CoreInvariant (boundary [(0, 4300)] 0 7 []) ∧ (boundary [(0, 4300)] 0 7 []).phase = .exec ∧
      (boundary [(0, 4300)] 0 7 []).status = .running ∧ halted.status = .halted .normal ∧
      Host.Core.run Sys2Proof.core 1 (boundary [(0, 4300)] 0 7 []) = .next halted ∧
      Host.Core.run coreFetchFirst 1 (boundary [(0, 4300)] 0 7 []) = .next halted :=
  ⟨by decide, by decide, by decide, by decide, rfl, rfl⟩

/-- A halted machine for each reason, and a running one. -/
theorem witness_HaltedIsAbsorbing_DumpShowsTheHaltedState_StatusPortNamesTheReason :
    (∀ r ∈ [HaltReason.normal, .invalidOpcode, .overflow, .divideByZero, .boundsViolation],
      (halted.haltWith r).status = .halted r) ∧
    (boundary [] 0 0 []).status = .running := by decide

/-- The loader's cases: the sentinel and the integers next to the ends of the range; a word for the first and for the
last cell; a word with no cell left; a word outside the Load phase. -/
theorem witness_LoaderWordResponses :
    (loading 0).phase = .load ∧ (loading 0).status = .running ∧ (loading 0).mem.wf = true ∧ (loading 0).lc ≤ 99 ∧
      (loading 2).mem.wf = true ∧ { loading 2 with lc := 99 : State }.lc ≤ 99 ∧
      100 ≤ { loading 2 with lc := 100 : State }.lc ∧ (word 9999).val = 9999 ∧
      (10000 : Int) ≠ -99999 ∧ ¬(-9999 ≤ (10000 : Int) ∧ (10000 : Int) ≤ 9999) ∧
      ¬((boundary [] 0 0 []).phase = .load ∧ (boundary [] 0 0 []).status = .running) := by decide

theorem witness_StartFetchesTheFirstWord :
    (loading 2).phase = .load ∧ (loading 2).status = .running ∧ ¬(halted.phase = .load ∧ halted.status = .running) := by
  decide

/-- No word at all, and words with one that is skipped. -/
theorem witness_LoadingBuildsTheLaunchState :
    (-99999 : Int) ∉ ([] : List Int) ∧ (-99999 : Int) ∉ [(1009 : Int), 10000, -5] ∧
      [(1009 : Int), 10000, -5].filterMap Word.ofInt? = [word 1009, word (-5)] ∧ [word 1009, word (-5)].length ≤ 100 := by
  decide

/-- A state in a run, with the step it takes, and one before it. -/
theorem witness_StepKeepsTheInvariant_EventsKeepTheInvariant :
    CoreInvariant (boundary [(0, 1105), (5, 3)] 0 (-9999) [7]) ∧
      answer (·.ic) (step (boundary [(0, 1105), (5, 3)] 0 (-9999) [7])) = some 1 ∧ CoreInvariant (loading 2) :=
  ⟨by decide, by decide, by decide⟩

end Sys2Proof.Tests
end

section
/-! The predicates of `00_scope.md`. -/

namespace Sys2Proof.Proofs.Scope

open Sys2Proof Sys2Proof.Machine

/-- Settles O8: the range half is the Word Validator's law, the address half the bounds checker's. -/
theorem validatorAndBoundsPredicates : Obligations.ValidatorAndBoundsPredicates :=
  ⟨fun _ => inRange_iff, fun _ => inBounds_iff⟩

end Sys2Proof.Proofs.Scope
end

section
/-! The legal addresses of `20_memory.md`: the memory operations answer exactly there. -/

namespace Sys2Proof.Proofs.MemoryAccess

open Sys2Proof Sys2Proof.Machine

theorem read?_isSome_iff (m : Memory) {a : Int} : (m.read? a).isSome = true ↔ 0 ≤ a ∧ a ≤ 99 := by
  rw [Option.isSome_iff_ne_none, ne_eq, m.read?_eq_none, not_not]

theorem write?_isSome_iff (m : Memory) {a : Int} {v : Word} : (m.write? a v).isSome = true ↔ 0 ≤ a ∧ a ≤ 99 := by
  rw [Option.isSome_iff_ne_none, ne_eq, m.write?_eq_none, not_not]

/-- Settles O9: the bounds checker's law of R52, and that reads and writes are refused exactly where it fails. -/
theorem legalAddressesAre0To99 : Obligations.LegalAddressesAre0To99 :=
  fun m _ _ => ⟨inBounds_iff, read?_isSome_iff m, write?_isSome_iff m⟩

end Sys2Proof.Proofs.MemoryAccess
end

section
/-! LOAD and STORE (`42_load_store.md` R130 to R132): where they are encoded, and what Execute does with them. -/

namespace Sys2Proof.Proofs.LoadStore

open Sys2Proof Sys2Proof.Machine

/-- A row of the opcode map whose operand is the instruction's own takes up the hundred words from its operation code
on (`30_encoding.md` R82, R84). -/
theorem encodedFrom_of_opcode {mk : Int → Instr} {c : Int} (hc : ∀ a, (mk a).opcode = c)
    (ho : ∀ a, (mk a).operand = a) : EncodedFrom (100 * c) mk := by
  intro w a
  rw [decode_eq_ok, hc, ho]

/-- LOAD is a data read whose value the ALU passes on to the accumulator. -/
theorem exec_load (a : Int) (s : State) :
    exec (.load a) s = withDataRead a s fun v => (s.setAcc v).advance := rfl

/-- STORE is a data write of the accumulator. -/
theorem exec_store (a : Int) (s : State) : exec (.store a) s = writeCellAndAdvance a s.acc s := rfl

theorem load_checksDataAddress : ChecksDataAddress .load := fun a s hbad => by
  rw [exec_load, withDataRead_of_bad hbad, State.haltWith]

theorem store_checksDataAddress : ChecksDataAddress .store := fun a s hbad => by
  rw [exec_store, writeCellAndAdvance_of_bad hbad, State.haltWith]

/-- Settles O13: at a good address the read has a value, and LOAD goes on with it. -/
theorem loadTakesTheCell : Obligations.LoadTakesTheCell := by
  refine ⟨encodedFrom_of_opcode (c := 20) (fun _ => rfl) (fun _ => rfl), load_checksDataAddress, ?_⟩
  intro a s h0 h99
  have hread := s.mem.read?_of_bounds h0 h99
  refine ⟨_, hread, ?_⟩
  rw [exec_load, withDataRead_of_read hread, State.advance, State.setAcc]

/-- Settles O14: at a good address the write has a memory, and the memory laws say what it reads at each cell; the
canonical form is what the law of the written cell needs. -/
theorem storeWritesTheCell : Obligations.StoreWritesTheCell := by
  refine ⟨encodedFrom_of_opcode (c := 21) (fun _ => rfl) (fun _ => rfl), store_checksDataAddress, ?_⟩
  intro a s hwf h0 h99
  have hwrite := s.mem.write?_of_bounds s.acc h0 h99
  refine ⟨_, ?_, Memory.read?_write?_same hwf hwrite, fun b hb => Memory.read?_write?_other hwrite hb⟩
  rw [exec_store, writeCellAndAdvance_of_write hwrite, State.advance, State.setMem]

end Sys2Proof.Proofs.LoadStore
end

section
/-! The branches (`44_control.md` R160 to R162): what each tests, what Execute does with it, and the fetch that follows
an unconditional jump. -/

namespace Sys2Proof.Proofs.Control

open Sys2Proof Sys2Proof.Machine

theorem accNegative_iff {s : State} : accNegative s = true ↔ s.acc.val < 0 := decide_eq_true_iff

theorem accZero_iff {s : State} : accZero s = true ↔ s.acc.val = 0 := decide_eq_true_iff

theorem branchWhen_taken {c : Bool} (h : c = true) (a : Int) (s : State) :
    branchWhen c a s = .next { s with ic := a } := by
  rw [branchWhen, if_pos h, State.jumpTo]

theorem branchWhen_notTaken {c : Bool} (h : ¬ c = true) (a : Int) (s : State) :
    branchWhen c a s = .next { s with ic := s.ic + 1 } := by
  rw [branchWhen, if_neg h, State.advance]

theorem exec_branch (a : Int) (s : State) : exec (.branch a) s = branchWhen true a s := rfl

theorem exec_branchneg (a : Int) (s : State) : exec (.branchneg a) s = branchWhen (accNegative s) a s := rfl

theorem exec_branchzero (a : Int) (s : State) : exec (.branchzero a) s = branchWhen (accZero s) a s := rfl

/-- A step fetches after every instruction that neither holds nor ends the run (`40_execution_cycle.md` R105, R106). -/
theorem step_fetches {s t : State} {i : Instr} (hp : s.phase = .exec) (hs : s.status = .running)
    (hd : decodeFields s.opc.val s.opd.val = .ok i) (hx : exec i s = .next t) (ht : t.status = .running)
    (hh : holds i s = false) : step s = .next t.fetch := by
  rw [step_exec hp hs, stepExec_ok hd hx, if_pos (by simp [ht, hh])]

/-- Settles O23: BRANCH jumps unconditionally, it never holds, and so the step fetches at the target. -/
theorem branchSetsTheCounter : Obligations.BranchSetsTheCounter := by
  have hexec (a : Int) (s : State) : exec (.branch a) s = .next { s with ic := a } := by
    rw [exec_branch, branchWhen_taken rfl]
  refine ⟨LoadStore.encodedFrom_of_opcode (c := 40) (fun _ => rfl) (fun _ => rfl), hexec, ?_⟩
  intro s w hp hs hopc hread
  have hd : decodeFields s.opc.val s.opd.val = .ok (.branch s.opd.val) := decodeFields_eq_ok.mpr ⟨hopc.symm, rfl⟩
  rw [step_fetches hp hs hd (hexec _ s) hs rfl, fetch_of_read hread, State.latch]

/-- Settles O24: the branch on the comparator `acc < 0`. -/
theorem branchnegTestsTheSign : Obligations.BranchnegTestsTheSign := by
  refine ⟨LoadStore.encodedFrom_of_opcode (c := 41) (fun _ => rfl) (fun _ => rfl), fun a s => ⟨fun hneg => ?_,
    fun hnonneg => ?_⟩⟩
  · rw [exec_branchneg, branchWhen_taken (accNegative_iff.mpr hneg)]
  · rw [exec_branchneg, branchWhen_notTaken (accNegative_iff.not.mpr hnonneg.not_gt)]

/-- Settles O25: the branch on the comparator `acc == 0`. -/
theorem branchzeroTestsZero : Obligations.BranchzeroTestsZero := by
  refine ⟨LoadStore.encodedFrom_of_opcode (c := 42) (fun _ => rfl) (fun _ => rfl), fun a s => ⟨fun hzero => ?_,
    fun hnonzero => ?_⟩⟩
  · rw [exec_branchzero, branchWhen_taken (accZero_iff.mpr hzero)]
  · rw [exec_branchzero, branchWhen_notTaken (accZero_iff.not.mpr hnonzero)]

end Sys2Proof.Proofs.Control
end

section
/-! The decoder against the opcode map (`30_encoding.md`): the rows, the gaps, the two fields of a word, and the 16-bit
carrier. -/

namespace Sys2Proof.Proofs.Encoding

open Sys2Proof Sys2Proof.Machine

/-- Settles O1: the encoder's word lies in the instruction's hundred, and such a word decodes to the instruction. -/
theorem decodeOfEncode : Obligations.DecodeOfEncode := by
  intro i hwf
  obtain ⟨h0, h99⟩ := operandOk_iff.mp hwf
  obtain ⟨w, hencode, hval, -⟩ := Laws.EncodesInItsHundred.statement_holds i hwf
  exact ⟨w, hencode, decode_eq_ok.mpr ⟨h0, h99, hval⟩⟩

/-- Settles O2: the word that the encoder gives has the value of the word decoded, and a Word is its value. -/
theorem encodeOfDecode : Obligations.EncodeOfDecode := by
  intro w i hdecode
  obtain ⟨h0, h99, hval⟩ := decode_eq_ok.mp hdecode
  have hwf : i.wellFormed = true := operandOk_iff.mpr ⟨h0, h99⟩
  obtain ⟨w', hencode, hval', -⟩ := Laws.EncodesInItsHundred.statement_holds i hwf
  exact ⟨hwf, Word.eq_of_val (hval'.trans hval.symm) ▸ hencode⟩

/-- Settles O3: a decoded word is a hundred times the operation code plus the operand, read for each of the twelve. -/
theorem decodeMatchesOpcodeMap : Obligations.DecodeMatchesOpcodeMap := by
  intro w i
  rw [decode_eq_ok]
  constructor
  · rintro ⟨h0, h99, hval⟩
    refine ⟨i.operand, h0, h99, ?_⟩
    cases i <;> simpa [Instr.opcode, Instr.operand] using hval
  · rintro ⟨a, h0, h99, hrow⟩
    rcases hrow with ⟨rfl, hval⟩ | ⟨rfl, hval⟩ | ⟨rfl, hval⟩ | ⟨rfl, hval⟩ | ⟨rfl, hval⟩ | ⟨rfl, hval⟩ |
      ⟨rfl, hval⟩ | ⟨rfl, hval⟩ | ⟨rfl, hval⟩ | ⟨rfl, hval⟩ | ⟨rfl, hval⟩ | ⟨rfl, hval⟩ <;>
      exact ⟨h0, h99, hval⟩

/-- A word is refused, by the name of its operation code, exactly when that code is none of the twelve. -/
theorem decode_eq_error {w : Word} :
    decode w = .error (.undefinedOpcode (opcodeField w).val) ↔
      tdiv w.val 100 ∉ [(10 : Int), 11, 20, 21, 30, 31, 32, 33, 40, 41, 42, 43] := by
  rw [decode, decodeFields_eq_error, opcodeField_val]
  simp only [true_and]

/-- Settles O4: a word that is not negative has its operation code by the usual quotient, whose hundreds are the rows;
a negative word has none of the twelve. -/
theorem invalidWordsAreTheGaps : Obligations.InvalidWordsAreTheGaps := by
  intro w
  rw [decode_eq_error]
  simp only [List.mem_cons, List.not_mem_nil, or_false, not_or]
  rcases lt_or_ge w.val 0 with hneg | hnonneg
  · have hfields := fields_of_neg hneg
    omega
  · have hfields := fields_of_nonneg hnonneg
    omega

/-- Settles O5: the quotient by signs and magnitudes with the divisor 100, the division identity, and the fields of a
negative word, which are no row of the map. -/
theorem fieldsTruncateTowardZero : Obligations.FieldsTruncateTowardZero := by
  intro w
  have hsplit := word_eq_fields w
  refine ⟨?_, ?_, fun hneg => ?_⟩
  · rw [opcodeField_val, tdiv_eq_sign_mul]
    rw [Int.sign_eq_one_of_pos (show (0 : Int) < 100 by decide), mul_one]
    rfl
  · rw [opcodeField_val, operandField_val]
    omega
  · have hbounds := w.bounds
    have hfields := fields_of_neg hneg
    refine ⟨?_, ?_, ?_, ?_, decode_eq_error.mpr ?_⟩
    · rw [opcodeField_val]; omega
    · rw [opcodeField_val]; omega
    · rw [operandField_val]; omega
    · rw [operandField_val]; omega
    · simp only [List.mem_cons, List.not_mem_nil, or_false, not_or]
      omega

/-- Settles O6: eleven closed words, decoded. -/
theorem writtenOutWordsDecode : Obligations.WrittenOutWordsDecode := by
  unfold Obligations.WrittenOutWordsDecode
  decide

/-- The 16-bit carrier holds every Word without loss. -/
theorem toCarrier_toInt (w : Word) : w.toCarrier.toInt = w.val := by
  have hbounds := w.bounds
  exact BitVec.toInt_ofInt_eq_self (by decide) (by norm_num; omega) (by norm_num; omega)

/-- Settles O7: the carrier's integer is the Word's value, and the codes of no Word are those whose integer the
validator refuses. -/
theorem carrierHoldsExactlyTheWords : Obligations.CarrierHoldsExactlyTheWords := by
  refine ⟨fun w => ?_, fun c => ?_⟩
  · rw [Word.ofCarrier?, toCarrier_toInt, ofInt?_val]
  · have hc := c.isLt
    rw [Word.ofCarrier?, ofInt?_eq_none, BitVec.toInt_eq_toNat_cond]
    split <;> omega

end Sys2Proof.Proofs.Encoding
end

section
/-! The outcomes of R105 (`40_execution_cycle.md`): an Execute completes by an advance or a jump, holds, or stops. From
these, everything a step of a running machine can do. -/

namespace Sys2Proof.Proofs.StepOutcome

open Sys2Proof Sys2Proof.Machine

/-! ## The meaning of each instruction, at an operation code -/

/-- An instruction is its operation code and its operand. -/
theorem instr_ext {i j : Instr} (hc : i.opcode = j.opcode) (ho : i.operand = j.operand) : i = j :=
  Except.ok.inj ((decodeFields_eq_ok.mpr ⟨rfl, rfl⟩).symm.trans (decodeFields_eq_ok.mpr ⟨hc.symm, ho.symm⟩))

theorem exec_of_opcode {i j : Instr} (hc : i.opcode = j.opcode) (ho : i.operand = j.operand) (s : State) :
    exec i s = exec j s := by rw [instr_ext hc ho]

theorem exec_read (a : Int) (s : State) : exec (.read a) s = execRead a s := rfl

theorem exec_write (a : Int) (s : State) :
    exec (.write a) s = withDataRead a s fun v => (s.emit a v).advance := rfl

theorem exec_halt (x : Int) (s : State) : exec (.halt x) s = .next (s.haltWith .normal) := rfl

theorem execRead_of_bad {a : Int} {s : State} (h : ¬(0 ≤ a ∧ a ≤ 99)) :
    execRead a s = .next (s.haltWith .boundsViolation) :=
  if_neg (inBounds_iff.not.mpr h)

theorem execRead_waits {a : Int} {s : State} (h : 0 ≤ a ∧ a ≤ 99) (hin : s.input = []) :
    execRead a s = .next s := by
  simp only [execRead, inBounds_iff.mpr h, if_true, hin]

theorem execRead_rejects {a : Int} {s : State} {v : Int} {rest : List Int} (h : 0 ≤ a ∧ a ≤ 99)
    (hin : s.input = v :: rest) (hv : ¬(-9999 ≤ v ∧ v ≤ 9999)) : execRead a s = .next (s.setInput rest) := by
  simp only [execRead, inBounds_iff.mpr h, if_true, hin, ofInt?_eq_none.mpr hv]

theorem execRead_accepts {a : Int} {s : State} {w : Word} {rest : List Int} {m : Memory}
    (hin : s.input = w.val :: rest) (hm : s.mem.write? a w = some m) :
    execRead a s = .next ((s.setInput rest).setMem m).advance := by
  simp only [execRead, inBounds_iff.mpr (Memory.write?_inv hm).1, if_true, hin, ofInt?_val]
  exact writeCellAndAdvance_of_write hm

theorem accumulate_of_read {op : AluOp} {a : Int} {s : State} {b : Word} (h : s.mem.read? a = some b) :
    accumulate op a s = .next (commitAlu s (alu op s.acc b)) := withDataRead_of_read h

/-- Every instruction with a data address checks it before anything else (`20_memory.md` R54). -/
theorem exec_of_badAddress {i : Instr} {s : State} (h : ¬(0 ≤ i.operand ∧ i.operand ≤ 99))
    (hi : i.opcode ≠ 40 ∧ i.opcode ≠ 41 ∧ i.opcode ≠ 42 ∧ i.opcode ≠ 43) :
    exec i s = .next (s.haltWith .boundsViolation) := by
  cases i with
  | read a => exact execRead_of_bad h
  | store a => exact writeCellAndAdvance_of_bad h
  | write a => exact withDataRead_of_bad h
  | load a => exact withDataRead_of_bad h
  | add a => exact withDataRead_of_bad h
  | subtract a => exact withDataRead_of_bad h
  | divide a => exact withDataRead_of_bad h
  | multiply a => exact withDataRead_of_bad h
  | branch a => exact absurd rfl hi.1
  | branchneg a => exact absurd rfl hi.2.1
  | branchzero a => exact absurd rfl hi.2.2.1
  | halt x => exact absurd rfl hi.2.2.2

/-- `Executed` lists no more than what Execute does: each of its cases is what `exec` answers. -/
theorem exec_of_executed {i : Instr} {s u : State} (h : Executed i s u) : exec i s = .next u := by
  cases h with
  | badAddress h hi => exact exec_of_badAddress h hi
  | waits hc hb hin =>
    rw [exec_of_opcode (j := .read i.operand) hc rfl]
    exact execRead_waits hb hin
  | rejects v rest hc hb hin hv =>
    rw [exec_of_opcode (j := .read i.operand) hc rfl]
    exact execRead_rejects hb hin hv
  | accepts w rest m hc hin hm =>
    rw [exec_of_opcode (j := .read i.operand) hc rfl]
    exact execRead_accepts hin hm
  | writes v hc hread =>
    rw [exec_of_opcode (j := .write i.operand) hc rfl]
    exact withDataRead_of_read hread
  | stores m hc hm =>
    rw [exec_of_opcode (j := .store i.operand) hc rfl]
    exact writeCellAndAdvance_of_write hm
  | computes op b hop hread => rw [exec_of_aluOpOf hop, accumulate_of_read hread]
  | jumps hc =>
    rcases hc with hc | ⟨hc, hacc⟩ | ⟨hc, hacc⟩
    · rw [exec_of_opcode (j := .branch i.operand) hc rfl]
      exact Control.branchWhen_taken rfl _ s
    · rw [exec_of_opcode (j := .branchneg i.operand) hc rfl]
      exact Control.branchWhen_taken (Control.accNegative_iff.mpr hacc) _ s
    · rw [exec_of_opcode (j := .branchzero i.operand) hc rfl]
      exact Control.branchWhen_taken (Control.accZero_iff.mpr hacc) _ s
  | fallsThrough hc =>
    rcases hc with ⟨hc, hacc⟩ | ⟨hc, hacc⟩
    · rw [exec_of_opcode (j := .branchneg i.operand) hc rfl]
      exact Control.branchWhen_notTaken (Control.accNegative_iff.not.mpr hacc) _ s
    · rw [exec_of_opcode (j := .branchzero i.operand) hc rfl]
      exact Control.branchWhen_notTaken (Control.accZero_iff.not.mpr hacc) _ s
  | halts hc =>
    rw [exec_of_opcode (j := .halt i.operand) hc rfl, exec_halt]

/-! ## The outcomes advance and jump -/

/-- Execute completes: the instruction advances or jumps (R105), so that the fetch follows. -/
inductive Completes (i : Instr) (s : State) : State → Prop where
  | accepts (w : Word) (rest : List Int) (m : Memory) (hc : i.opcode = 10) (hin : s.input = w.val :: rest)
      (hm : s.mem.write? i.operand w = some m) : Completes i s ((s.setInput rest).setMem m).advance
  | writes (v : Word) (hc : i.opcode = 11) (hread : s.mem.read? i.operand = some v) :
      Completes i s (s.emit i.operand v).advance
  | stores (m : Memory) (hc : i.opcode = 21) (hm : s.mem.write? i.operand s.acc = some m) :
      Completes i s (s.setMem m).advance
  | computes (op : AluOp) (b r : Word) (hop : aluOpOf i = some op) (hread : s.mem.read? i.operand = some b)
      (hr : alu op s.acc b = .ok r) : Completes i s (s.setAcc r).advance
  | jumps (hc : i.opcode = 40 ∨ (i.opcode = 41 ∧ s.acc.val < 0) ∨ (i.opcode = 42 ∧ s.acc.val = 0)) :
      Completes i s (s.jumpTo i.operand)
  | fallsThrough (hc : (i.opcode = 41 ∧ ¬ s.acc.val < 0) ∨ (i.opcode = 42 ∧ s.acc.val ≠ 0)) :
      Completes i s s.advance

namespace Completes

variable {i : Instr} {s u : State}

theorem executed (h : Completes i s u) : Executed i s u := by
  cases h with
  | accepts w rest m hc hin hm => exact .accepts w rest m hc hin hm
  | writes v hc hread => exact .writes v hc hread
  | stores m hc hm => exact .stores m hc hm
  | computes op b r hop hread hr =>
    have hx := Executed.computes (i := i) (s := s) op b hop hread
    rwa [hr] at hx
  | jumps hc => exact .jumps hc
  | fallsThrough hc => exact .fallsThrough hc

theorem exec_eq (h : Completes i s u) : exec i s = .next u := exec_of_executed h.executed

theorem status_eq (h : Completes i s u) : u.status = s.status := by cases h <;> rfl

theorem phase_eq (h : Completes i s u) : u.phase = s.phase := by cases h <;> rfl

theorem lc_eq (h : Completes i s u) : u.lc = s.lc := by cases h <;> rfl

theorem registers_eq (h : Completes i s u) : u.ir = s.ir ∧ u.opc = s.opc ∧ u.opd = s.opd :=
  h.executed.instructionRegisters

/-- A completed instruction has moved the counter to the next address or to its operand, the latter by a branch. -/
theorem ic_cases (h : Completes i s u) :
    u.ic = s.ic + 1 ∨ (u.ic = i.operand ∧ (i.opcode = 40 ∨ i.opcode = 41 ∨ i.opcode = 42)) := by
  cases h with
  | jumps hc => exact .inr ⟨rfl, by omega⟩
  | _ => exact .inl rfl

theorem mem_cases (h : Completes i s u) : u.mem = s.mem ∨ ∃ v, s.mem.write? i.operand v = some u.mem := by
  cases h with
  | accepts w rest m hc hin hm => exact .inr ⟨w, hm⟩
  | stores m hc hm => exact .inr ⟨s.acc, hm⟩
  | _ => exact .inl rfl

theorem output_cases (h : Completes i s u) :
    u.output = s.output ∨ ∃ v, s.mem.read? i.operand = some v ∧ u.output = s.output ++ [(i.operand, v)] := by
  cases h with
  | writes v hc hread => exact .inr ⟨v, hread, rfl⟩
  | _ => exact .inl rfl

theorem holds_eq_false (h : Completes i s u) : holds i s = false := by
  rw [← Bool.not_eq_true, holds_iff]
  rintro ⟨hread, hhead⟩
  cases h with
  | accepts w rest m hc hin hm => exact hhead w.val (by simp [hin]) w.bounds
  | computes op b r hop => cases i <;> simp_all [aluOpOf, Instr.opcode]
  | _ => omega

end Completes

/-! ## The outcomes stop and hold -/

/-- What ends the run in the instruction itself, with no fetch after it (`60_exceptions.md` R181, `44_control.md` R165),
by the reason. -/
def StopsFor (s : State) : HaltReason → Prop
  | .normal => s.opc.val = 43
  | .invalidOpcode => s.opc.val ∉ [(10 : Int), 11, 20, 21, 30, 31, 32, 33, 40, 41, 42, 43]
  | .overflow => ∃ b, s.mem.read? s.opd.val = some b ∧
      ((s.opc.val = 30 ∧ inRange (s.acc.val + b.val) = false) ∨
        (s.opc.val = 31 ∧ inRange (s.acc.val - b.val) = false) ∨
        (s.opc.val = 33 ∧ inRange (s.acc.val * b.val) = false))
  | .divideByZero => s.opc.val = 32 ∧ s.mem.read? s.opd.val = some Word.zero
  | .boundsViolation => ¬(0 ≤ s.opd.val ∧ s.opd.val ≤ 99) ∧
      s.opc.val ∈ [(10 : Int), 11, 20, 21, 30, 31, 32, 33]

/-- The next input is missing or is no Word. -/
def NoWordOffered (s : State) : Prop := ∀ v ∈ s.input.head?, ¬(-9999 ≤ v ∧ v ≤ 9999)

/-- What a READ that does not complete leaves: the next input, if there is one, is consumed. -/
def dropInput (s : State) : State := s.setInput s.input.tail

theorem dropInput_of_nil {s : State} (h : s.input = []) : dropInput s = s := by
  rw [dropInput, h, List.tail_nil, ← h]
  rfl

theorem dropInput_of_cons {s : State} {v : Int} {rest : List Int} (h : s.input = v :: rest) :
    dropInput s = s.setInput rest := by
  rw [dropInput, h, List.tail_cons]

/-- The ALU refuses by Overflow exactly an exact result of the three operations that is no Word (R141). -/
theorem alu_eq_overflow {op : AluOp} {a b : Word} : alu op a b = .overflow ↔
    (op = .add ∧ inRange (a.val + b.val) = false) ∨ (op = .sub ∧ inRange (a.val - b.val) = false) ∨
      (op = .mul ∧ inRange (a.val * b.val) = false) := by
  have hval {t : Int} : validated t = .overflow ↔ inRange t = false := by
    rw [validated_eq_overflow, ← inRange_iff, Bool.not_eq_true]
  cases op with
  | pass => simp [alu]
  | div =>
    by_cases h : b.val = 0
    · simp [alu_div_zero h]
    · simp [alu_div h]
  | add => simpa [alu] using hval
  | sub => simpa [alu] using hval
  | mul => simpa [alu] using hval

/-- The ALU refuses by DivideByZero exactly a division by the Word 0 (R142). -/
theorem alu_eq_divideByZero {op : AluOp} {a b : Word} : alu op a b = .divideByZero ↔ op = .div ∧ b = Word.zero := by
  have hzero : b.val = 0 ↔ b = Word.zero := ⟨fun h => Word.eq_of_val h, fun h => h ▸ rfl⟩
  cases op with
  | pass => simp [alu]
  | div =>
    rw [← hzero]
    by_cases h : b.val = 0
    · simp [alu_div_zero h, h]
    · simp [alu_div h, h]
  | add => simpa [alu] using validated_ne_divideByZero
  | sub => simpa [alu] using validated_ne_divideByZero
  | mul => simpa [alu] using validated_ne_divideByZero

/-- The operation codes of the instructions that use the ALU (R140). -/
theorem opcode_of_aluOpOf {i : Instr} {op : AluOp} (h : aluOpOf i = some op) :
    (op = .pass ∧ i.opcode = 20) ∨ (op = .add ∧ i.opcode = 30) ∨ (op = .sub ∧ i.opcode = 31) ∨
      (op = .div ∧ i.opcode = 32) ∨ (op = .mul ∧ i.opcode = 33) := by
  cases i <;> cases h <;> simp [Instr.opcode]

/-- R105: one Execute of the instruction in the registers stops, holds or completes. -/
theorem exec_outcome {i : Instr} {s u : State} (hd : decodeFields s.opc.val s.opd.val = .ok i)
    (hx : exec i s = .next u) :
    (∃ r, StopsFor s r ∧ u = s.haltWith r) ∨
      (s.opc.val = 10 ∧ (0 ≤ s.opd.val ∧ s.opd.val ≤ 99) ∧ NoWordOffered s ∧ u = dropInput s) ∨
      Completes i s u := by
  obtain ⟨hopc, hopd⟩ := decodeFields_eq_ok.mp hd
  have hmem := opcode_mem i
  cases exec_next hx with
  | badAddress hbad hi =>
    refine .inl ⟨.boundsViolation, ⟨hopd ▸ hbad, ?_⟩, rfl⟩
    simp only [List.mem_cons, List.not_mem_nil, or_false] at hmem ⊢
    omega
  | waits hc hb hin =>
    refine .inr (.inl ⟨hopc ▸ hc, hopd ▸ hb, by simp [NoWordOffered, hin], (dropInput_of_nil hin).symm⟩)
  | rejects v rest hc hb hin hv =>
    exact .inr (.inl ⟨hopc ▸ hc, hopd ▸ hb, by simpa [NoWordOffered, hin] using hv, (dropInput_of_cons hin).symm⟩)
  | accepts w rest m hc hin hm => exact .inr (.inr (.accepts w rest m hc hin hm))
  | writes v hc hread => exact .inr (.inr (.writes v hc hread))
  | stores m hc hm => exact .inr (.inr (.stores m hc hm))
  | jumps hc => exact .inr (.inr (.jumps hc))
  | fallsThrough hc => exact .inr (.inr (.fallsThrough hc))
  | halts hc => exact .inl ⟨.normal, hopc.symm.trans hc, rfl⟩
  | computes op b hop hread =>
    have hcode := opcode_of_aluOpOf hop
    rcases commitAlu_cases s (alu op s.acc b) with ⟨r, hr, hu⟩ | ⟨hr, hu⟩ | ⟨hr, hu⟩
    · exact .inr (.inr (hu ▸ .computes op b r hop hread hr))
    · refine .inl ⟨.overflow, ⟨b, hopd ▸ hread, ?_⟩, hu⟩
      rcases alu_eq_overflow.mp hr with ⟨rfl, ho⟩ | ⟨rfl, ho⟩ | ⟨rfl, ho⟩
      · exact .inl ⟨by simpa [hopc] using hcode, ho⟩
      · exact .inr (.inl ⟨by simpa [hopc] using hcode, ho⟩)
      · exact .inr (.inr ⟨by simpa [hopc] using hcode, ho⟩)
    · obtain ⟨rfl, rfl⟩ := alu_eq_divideByZero.mp hr
      exact .inl ⟨.divideByZero, ⟨by simpa [hopc] using hcode, hopd ▸ hread⟩, hu⟩

/-! ## The step -/

/-- Everything the step of a running machine in the Exec phase can do (R106). -/
inductive Stepped (s : State) : State → Prop where
  /-- The instruction stops: nothing but the status changes. -/
  | stops (r : HaltReason) (why : StopsFor s r) : Stepped s (s.haltWith r)
  /-- A READ holds, or waits. -/
  | holds (hc : s.opc.val = 10) (hb : 0 ≤ s.opd.val ∧ s.opd.val ≤ 99) (hin : NoWordOffered s) :
      Stepped s (dropInput s)
  /-- The instruction completes and the fetch follows. -/
  | fetches (i : Instr) (u : State) (hd : decodeFields s.opc.val s.opd.val = .ok i) (hx : Completes i s u) :
      Stepped s u.fetch

theorem stepped_of_step {s t : State} (hp : s.phase = .exec) (hs : s.status = .running)
    (h : step s = .next t) : Stepped s t := by
  rcases step_next h with ⟨-, hload, -⟩ | ⟨-, -, ⟨e, he, rfl⟩ | ⟨i, u, hd, hx, -, rfl⟩⟩
  · rw [hp] at hload; cases hload
  · exact .stops .invalidOpcode (decodeFields_eq_error.mp he).2
  · rcases exec_outcome hd hx with ⟨r, why, rfl⟩ | ⟨hc, hb, hin, rfl⟩ | hcompletes
    · simpa using Stepped.stops r why
    · have hholds : Machine.holds i s = true := holds_iff.mpr ⟨(decodeFields_eq_ok.mp hd).1.trans hc, hin⟩
      simpa [hholds] using Stepped.holds hc hb hin
    · have hr : u.status = .running := hcompletes.status_eq.trans hs
      simpa [hr, hcompletes.holds_eq_false] using Stepped.fetches i u hd hcompletes

/-- Execute of an instruction that is followed by no fetch is the whole step. -/
theorem step_of_exec_stops {s u : State} {i : Instr} (hp : s.phase = .exec) (hs : s.status = .running)
    (hd : decodeFields s.opc.val s.opd.val = .ok i) (hx : exec i s = .next u)
    (hend : u.status ≠ .running ∨ Machine.holds i s = true) : step s = .next u := by
  rw [step_exec hp hs, stepExec_ok hd hx, if_neg (by rcases hend with h | h <;> simp [h])]

/-- An instruction that completes is followed by the fetch. -/
theorem step_of_completes {s u : State} {i : Instr} (hp : s.phase = .exec) (hs : s.status = .running)
    (hd : decodeFields s.opc.val s.opd.val = .ok i) (hx : Completes i s u) : step s = .next u.fetch :=
  Control.step_fetches hp hs hd hx.exec_eq (hx.status_eq.trans hs) hx.holds_eq_false

/-- Each of the twelve operation codes selects an instruction. -/
theorem decodes_of_mem {c o : Int} (h : c ∈ [(10 : Int), 11, 20, 21, 30, 31, 32, 33, 40, 41, 42, 43]) :
    ∃ i, decodeFields c o = .ok i := by
  cases hd : decodeFields c o with
  | ok i => exact ⟨i, rfl⟩
  | error e => exact absurd h (decodeFields_eq_error.mp hd).2

/-- An instruction of the ALU, at a cell that reads, commits the unit's result. -/
theorem exec_of_alu {i : Instr} {op : AluOp} {s : State} {b : Word} (hop : aluOpOf i = some op)
    (hread : s.mem.read? i.operand = some b) : exec i s = .next (commitAlu s (alu op s.acc b)) := by
  rw [exec_of_aluOpOf hop, accumulate_of_read hread]

/-- What ends the run in the instruction does end it, and the status is all that changes (R184). -/
theorem step_of_stopsFor {s : State} {r : HaltReason} (hp : s.phase = .exec) (hs : s.status = .running)
    (why : StopsFor s r) : step s = .next (s.haltWith r) := by
  have hstop {i : Instr} (hd : decodeFields s.opc.val s.opd.val = .ok i) (hx : exec i s = .next (s.haltWith r)) :
      step s = .next (s.haltWith r) := step_of_exec_stops hp hs hd hx (.inl (by simp))
  cases r with
  | normal => exact hstop (i := .halt s.opd.val) (decodeFields_eq_ok.mpr ⟨why.symm, rfl⟩) (exec_halt s.opd.val s)
  | invalidOpcode => rw [step_exec hp hs, stepExec_error (decodeFields_eq_error.mpr ⟨rfl, why⟩)]
  | overflow =>
    obtain ⟨b, hread, hover⟩ := why
    obtain ⟨i, op, hd, hop, halu⟩ : ∃ i op, (i.opcode = s.opc.val ∧ i.operand = s.opd.val) ∧
        aluOpOf i = some op ∧ alu op s.acc b = .overflow := by
      rcases hover with ⟨hc, ho⟩ | ⟨hc, ho⟩ | ⟨hc, ho⟩
      · exact ⟨.add s.opd.val, .add, ⟨hc.symm, rfl⟩, rfl, alu_eq_overflow.mpr (.inl ⟨rfl, ho⟩)⟩
      · exact ⟨.subtract s.opd.val, .sub, ⟨hc.symm, rfl⟩, rfl, alu_eq_overflow.mpr (.inr (.inl ⟨rfl, ho⟩))⟩
      · exact ⟨.multiply s.opd.val, .mul, ⟨hc.symm, rfl⟩, rfl, alu_eq_overflow.mpr (.inr (.inr ⟨rfl, ho⟩))⟩
    refine hstop (decodeFields_eq_ok.mpr hd) ?_
    rw [exec_of_alu hop (hd.2 ▸ hread), halu, commitAlu]
  | divideByZero =>
    obtain ⟨hc, hread⟩ := why
    refine hstop (i := .divide s.opd.val) (decodeFields_eq_ok.mpr ⟨hc.symm, rfl⟩) ?_
    rw [exec_of_alu rfl hread, alu_div_zero rfl, commitAlu]
  | boundsViolation =>
    obtain ⟨hbad, hmem⟩ := why
    simp only [List.mem_cons, List.not_mem_nil, or_false] at hmem
    obtain ⟨i, hd⟩ := decodes_of_mem (c := s.opc.val) (o := s.opd.val)
      (by simp only [List.mem_cons, List.not_mem_nil, or_false]; omega)
    obtain ⟨hopc, hopd⟩ := decodeFields_eq_ok.mp hd
    exact hstop hd (exec_of_badAddress (hopd ▸ hbad) (by omega))

/-- A READ that finds no Word consumes at most its input, and no fetch follows. -/
theorem step_of_holds {s : State} (hp : s.phase = .exec) (hs : s.status = .running) (hc : s.opc.val = 10)
    (hb : 0 ≤ s.opd.val ∧ s.opd.val ≤ 99) (hin : NoWordOffered s) : step s = .next (dropInput s) := by
  have hx : exec (.read s.opd.val) s = .next (dropInput s) := by
    rw [exec_read]
    cases hinput : s.input with
    | nil => rw [execRead_waits hb hinput, dropInput_of_nil hinput]
    | cons v rest =>
      rw [execRead_rejects hb hinput (hin v (by simp [hinput])), dropInput_of_cons hinput]
  exact step_of_exec_stops (i := .read s.opd.val) hp hs (decodeFields_eq_ok.mpr ⟨hc.symm, rfl⟩) hx
    (.inr (holds_iff.mpr ⟨rfl, hin⟩))

/-- `Stepped` is the step of a running machine in the Exec phase. -/
theorem step_eq_next_iff {s t : State} (hp : s.phase = .exec) (hs : s.status = .running) :
    step s = .next t ↔ Stepped s t := by
  refine ⟨stepped_of_step hp hs, fun h => ?_⟩
  cases h with
  | stops r why => exact step_of_stopsFor hp hs why
  | holds hc hb hin => exact step_of_holds hp hs hc hb hin
  | fetches i u hd hx => exact step_of_completes hp hs hd hx

/-! ## What a fetch leaves -/

section
variable (u : State)

/-- What neither the latch nor a failed fetch writes, a fetch leaves as it was (R102). -/
theorem fetch_field {α : Type} (f : State → α) (hlatch : ∀ w, f (u.latch w) = f u)
    (hbad : f (u.haltWith .boundsViolation) = f u) : f u.fetch = f u := by
  rcases fetch_cases u with ⟨w, -, hf⟩ | ⟨-, hf⟩ <;> rw [hf]
  · exact hlatch w
  · exact hbad

@[simp] theorem fetch_mem : u.fetch.mem = u.mem := fetch_field u State.mem (fun _ => rfl) rfl
@[simp] theorem fetch_acc : u.fetch.acc = u.acc := fetch_field u State.acc (fun _ => rfl) rfl
@[simp] theorem fetch_ic : u.fetch.ic = u.ic := fetch_field u State.ic (fun _ => rfl) rfl
@[simp] theorem fetch_input : u.fetch.input = u.input := fetch_field u State.input (fun _ => rfl) rfl
@[simp] theorem fetch_output : u.fetch.output = u.output := fetch_field u State.output (fun _ => rfl) rfl
@[simp] theorem fetch_phase : u.fetch.phase = u.phase := fetch_field u State.phase (fun _ => rfl) rfl
@[simp] theorem fetch_lc : u.fetch.lc = u.lc := fetch_field u State.lc (fun _ => rfl) rfl

end

end Sys2Proof.Proofs.StepOutcome
end

section
/-! The invariant of every reachable state (`10_state.md` section 7): reset meets it, and every step and every event
from outside keeps it. -/

namespace Sys2Proof.Proofs.Invariant

open Sys2Proof Sys2Proof.Machine StepOutcome

/-- The coupled registers are the fields of `ir` as Words (`10_state.md` R31). -/
theorem registers_of_fieldsCoupled {s : State} (h : FieldsCoupled s) :
    s.opc = opcodeField s.ir ∧ s.opd = operandField s.ir :=
  ⟨Word.eq_of_val h.1, Word.eq_of_val h.2⟩

/-- A fetch restores the whole invariant from the parts of it that Execute keeps; the counter 100 is the fall through
address 99 (`10_state.md` R45, R46). -/
theorem coreInvariant_fetch {u : State} (hwf : u.mem.wf = true) (hcoupled : FieldsCoupled u)
    (hic : 0 ≤ u.ic ∧ u.ic ≤ 100) (hlc : u.lc ≤ 100) (hphase : u.phase = .exec) (hout : OutputAddressed u) :
    CoreInvariant u.fetch := by
  have hnoload : u.phase ≠ .load := by rw [hphase]; decide
  rcases fetch_cases u with ⟨w, hread, hf⟩ | ⟨hbad, hf⟩ <;> rw [hf]
  · have hb := Memory.bounds_of_read? hread
    exact ⟨hwf, ⟨rfl, rfl⟩, ⟨hic.1, hic.2, fun h => absurd h (show u.ic ≠ 100 by omega)⟩, hlc, fun _ _ => hread,
      fun h => absurd h hnoload, hout⟩
  · exact ⟨hwf, hcoupled, ⟨hic.1, hic.2, fun _ => rfl⟩, hlc, fun _ h => (nomatch h), fun h => absurd h hnoload, hout⟩

/-- A halt that leaves everything else keeps the invariant. -/
theorem coreInvariant_haltWith {s : State} (h : CoreInvariant s) (hp : s.phase = .exec) (hs : s.status = .running)
    (r : HaltReason) : CoreInvariant (s.haltWith r) := by
  obtain ⟨hwf, hcoupled, ⟨h0, h100, hend⟩, hlc, -, -, hout⟩ := h
  refine ⟨hwf, hcoupled, ⟨h0, h100, fun hic => ?_⟩, hlc, fun _ h => (nomatch h), fun hload => ?_, hout⟩
  · cases hs.symm.trans (hend hic)
  · cases hp.symm.trans hload

theorem coreInvariant_setInput {s : State} (h : CoreInvariant s) (l : List Int) : CoreInvariant (s.setInput l) := h

/-- In a running machine the counter is an address. -/
theorem ic_bounds_of_running {s : State} (h : CoreInvariant s) (hs : s.status = .running) : 0 ≤ s.ic ∧ s.ic ≤ 99 := by
  obtain ⟨-, -, ⟨h0, h100, hend⟩, -⟩ := h
  have hne : s.ic ≠ 100 := fun hic => nomatch hs.symm.trans (hend hic)
  omega

/-- At a boundary of a run the registers are the fetch of the counter: a fetch again changes nothing. -/
theorem fetch_eq_self {s : State} (h : CoreInvariant s) (hp : s.phase = .exec) (hs : s.status = .running) :
    s.fetch = s := by
  obtain ⟨-, hcoupled, -, -, hcoherent, -⟩ := h
  obtain ⟨hopc, hopd⟩ := registers_of_fieldsCoupled hcoupled
  rw [fetch_of_read (hcoherent hp hs), State.latch, ← hopc, ← hopd]

/-- The operand of an instruction in coupled registers is an address (`30_encoding.md` R82, R84). -/
theorem operand_bounds {s : State} {i : Instr} (h : FieldsCoupled s)
    (hd : decodeFields s.opc.val s.opd.val = .ok i) : 0 ≤ i.operand ∧ i.operand ≤ 99 := by
  have hdecode : decode s.ir = .ok i := by
    obtain ⟨hopc, hopd⟩ := registers_of_fieldsCoupled h
    rw [decode, ← hopc, ← hopd, hd]
  obtain ⟨h0, h99, -⟩ := decode_eq_ok.mp hdecode
  exact ⟨h0, h99⟩

/-- A completed instruction and its fetch keep the invariant. -/
theorem coreInvariant_of_completes {s u : State} {i : Instr} (h : CoreInvariant s) (hp : s.phase = .exec)
    (hs : s.status = .running) (hd : decodeFields s.opc.val s.opd.val = .ok i) (hx : Completes i s u) :
    CoreInvariant u.fetch := by
  have hic := ic_bounds_of_running h hs
  obtain ⟨hwf, hcoupled, -, hlc, -, -, hout⟩ := h
  have hoperand := operand_bounds hcoupled hd
  obtain ⟨hir, hopc, hopd⟩ := hx.registers_eq
  have hwf' : u.mem.wf = true := by
    rcases hx.mem_cases with hm | ⟨v, hm⟩
    · rw [hm, hwf]
    · exact Memory.wf_write? hwf hm
  have hcoupled' : FieldsCoupled u := by rw [FieldsCoupled, hir, hopc, hopd]; exact hcoupled
  have hic' : 0 ≤ u.ic ∧ u.ic ≤ 100 := by
    rcases hx.ic_cases with h | ⟨h, -⟩ <;> omega
  have hout' : OutputAddressed u := by
    rcases hx.output_cases with h | ⟨v, -, h⟩ <;> rw [OutputAddressed, h]
    · exact hout
    · exact List.forall_mem_append.mpr ⟨hout, by simpa using hoperand⟩
  exact coreInvariant_fetch hwf' hcoupled' hic' (hx.lc_eq ▸ hlc) (hx.phase_eq.trans hp) hout'

/-- Settles O48, by the outcomes of a step: a stop and a hold leave all that the invariant speaks of but the status, and
a fetch restores it after an instruction that completes. -/
theorem stepKeepsTheInvariant : Obligations.StepKeepsTheInvariant := by
  intro s t hinv h
  rcases step_next h with ⟨-, -, rfl⟩ | ⟨hs, hp, -⟩
  · exact hinv
  · cases stepped_of_step hp hs h with
    | stops r why => exact coreInvariant_haltWith hinv hp hs r
    | holds hc hb hin => exact coreInvariant_setInput hinv _
    | fetches i u hd hx => exact coreInvariant_of_completes hinv hp hs hd hx

/-! ## Reset and the events from outside -/

/-- Settles O47: every clause speaks of the reset values. -/
theorem resetMeetsTheInvariant : Obligations.ResetMeetsTheInvariant := by
  unfold Obligations.ResetMeetsTheInvariant
  decide

/-- A write lists no address but its own anew. -/
theorem mem_putCell {a : Nat} {v : Word} {p : Nat × Word} {l : List (Nat × Word)} (h : p ∈ putCell a v l) :
    p = (a, v) ∨ p ∈ l := by
  induction l with
  | nil =>
    unfold putCell at h
    split at h <;> simp_all
  | cons q l ih =>
    obtain ⟨b, w⟩ := q
    unfold putCell at h
    split_ifs at h <;> simp only [List.mem_cons] at h ⊢ <;> tauto

theorem coreInvariant_hostReset (s : State) : CoreInvariant (hostReset s) :=
  coreInvariant_setInput resetMeetsTheInvariant s.input

theorem coreInvariant_start {s : State} (h : CoreInvariant s) : CoreInvariant (start s) := by
  unfold start
  split
  · next hload =>
    obtain ⟨hwf, hcoupled, ⟨h0, h100, -⟩, hlc, -, -, hout⟩ := h
    exact coreInvariant_fetch hwf hcoupled ⟨h0, h100⟩ hlc rfl hout
  · exact h

/-- Storing a loader's word keeps the Load phase quiet: the cell written is the one below the new load counter. -/
theorem coreInvariant_storeLoaded {s : State} (h : CoreInvariant s) (hp : s.phase = .load) (w : Word) :
    CoreInvariant (storeLoaded w s) := by
  obtain ⟨hwf, hcoupled, ⟨h0, h100, hend⟩, hlc, -, hquiet, hout⟩ := h
  obtain ⟨hs, hacc, hic, hir, hout0, hcells⟩ := hquiet hp
  rcases Nat.lt_or_ge s.lc 100 with hroom | hfull
  · obtain ⟨m, hm, heq⟩ := storeLoaded_of_room (s := s) (w := w) (by omega)
    have hbelow : ∀ p ∈ m.cells, p.1 < s.lc + 1 := by
      obtain ⟨-, rfl⟩ := Memory.write?_inv hm
      intro p hmem
      rcases mem_putCell hmem with rfl | hmem
      · simp
      · exact Nat.lt_succ_of_lt (hcells p hmem)
    rw [heq]
    exact ⟨Memory.wf_write? hwf hm, hcoupled, ⟨h0, h100, hend⟩, hroom, fun h => (nomatch hp.symm.trans h),
      fun _ => ⟨hs, hacc, hic, hir, hout0, hbelow⟩, hout⟩
  · rw [storeLoaded_full hfull]
    exact ⟨hwf, hcoupled, ⟨h0, h100, fun _ => rfl⟩, hlc, fun _ h => (nomatch h), fun h => (nomatch h), hout⟩

theorem coreInvariant_loadWord {s : State} (h : CoreInvariant s) (v : Int) : CoreInvariant (loadWord v s) := by
  unfold loadWord
  split
  · next hload =>
    split
    · exact coreInvariant_start h
    · split
      · exact coreInvariant_storeLoaded h hload.1 _
      · exact h
  · exact h

/-- Settles O49, event by event; an offered input changes nothing that the invariant speaks of. -/
theorem eventsKeepTheInvariant : Obligations.EventsKeepTheInvariant := fun s v h =>
  ⟨coreInvariant_hostReset s, coreInvariant_loadWord h v, coreInvariant_start h,
    coreInvariant_setInput h (s.input ++ [v])⟩

end Sys2Proof.Proofs.Invariant
end

section
/-! The ends of a run (`60_exceptions.md`): which reason arises and when, and that halting is precise. -/

namespace Sys2Proof.Proofs.Halting

open Sys2Proof Sys2Proof.Machine StepOutcome

/-- A fetch that ends the run failed, and changed the status only. -/
theorem fetch_of_halts {u : State} {r : HaltReason} (hu : u.status = .running) (h : u.fetch.status = .halted r) :
    r = .boundsViolation ∧ ¬(0 ≤ u.ic ∧ u.ic ≤ 99) ∧ u.fetch = u.haltWith .boundsViolation := by
  rcases fetch_cases u with ⟨w, -, hf⟩ | ⟨hbad, hf⟩ <;> rw [hf] at h
  · cases hu.symm.trans h
  · exact ⟨(Status.halted.inj h).symm, hbad, hf⟩

/-- Every reason but BoundsViolation is raised by the instruction itself, never by the fetch. -/
theorem halted_iff_stopsFor {s t : State} {r : HaltReason} (hp : s.phase = .exec) (hs : s.status = .running)
    (h : step s = .next t) (hr : r ≠ .boundsViolation) : t.status = .halted r ↔ StopsFor s r := by
  constructor
  · intro ht
    cases stepped_of_step hp hs h with
    | stops r' why => exact Status.halted.inj ht ▸ why
    | holds hc hb hin => cases hs.symm.trans ht
    | fetches i u hd hx => exact absurd (fetch_of_halts (hx.status_eq.trans hs) ht).1 hr
  · intro why
    cases h.symm.trans (step_of_stopsFor hp hs why)
    rfl

/-- In coupled registers the operand of one of the twelve is an address, so no instruction raises BoundsViolation
itself (`20_memory.md` R54). -/
theorem not_stopsFor_boundsViolation {s : State} (h : FieldsCoupled s) : ¬ StopsFor s .boundsViolation := by
  rintro ⟨hbad, hmem⟩
  simp only [List.mem_cons, List.not_mem_nil, or_false] at hmem
  obtain ⟨i, hd⟩ := decodes_of_mem (c := s.opc.val) (o := s.opd.val)
    (by simp only [List.mem_cons, List.not_mem_nil, or_false]; omega)
  exact hbad ((decodeFields_eq_ok.mp hd).2 ▸ Invariant.operand_bounds h hd)

/-- A boundary state that steps to a halted one stopped in its instruction, or completed it and failed to fetch at the
counter 100. -/
theorem halted_cases {s t : State} {r : HaltReason} (hinv : CoreInvariant s) (hp : s.phase = .exec)
    (hs : s.status = .running) (h : step s = .next t) (ht : t.status = .halted r) :
    (r ≠ .boundsViolation ∧ t = s.haltWith r) ∨
      (r = .boundsViolation ∧ ∃ i u, decodeFields s.opc.val s.opd.val = .ok i ∧ Completes i s u ∧ u.ic = 100 ∧
        t = u.haltWith .boundsViolation) := by
  cases stepped_of_step hp hs h with
  | stops r' why =>
    obtain rfl := Status.halted.inj ht
    refine .inl ⟨?_, rfl⟩
    rintro rfl
    exact not_stopsFor_boundsViolation hinv.2.1 why
  | holds hc hb hin => cases hs.symm.trans ht
  | fetches i u hd hx =>
    obtain ⟨hr, hbad, hf⟩ := fetch_of_halts (hx.status_eq.trans hs) ht
    obtain ⟨-, -, ⟨h0, h100, -⟩, -⟩ := Invariant.coreInvariant_of_completes hinv hp hs hd hx
    rw [hf, State.haltWith_ic] at h0 h100
    exact .inr ⟨hr, i, u, hd, hx, by omega, hf⟩

/-- Settles O34: four reasons are the instruction's own, and the fifth is the fetch at the counter 100. -/
theorem haltReasonsExactlyWhen : Obligations.HaltReasonsExactlyWhen := by
  intro s t hinv hp hs h
  refine ⟨halted_iff_stopsFor hp hs h (by decide), halted_iff_stopsFor hp hs h (by decide),
    halted_iff_stopsFor hp hs h (by decide), halted_iff_stopsFor hp hs h (by decide), fun ht => ?_, fun hic => ?_⟩
  · rcases halted_cases hinv hp hs h ht with ⟨hne, -⟩ | ⟨-, i, u, -, -, hic, rfl⟩
    · exact absurd rfl hne
    · exact hic
  · obtain ⟨-, -, ⟨-, -, hend⟩, -⟩ := Invariant.stepKeepsTheInvariant s t hinv h
    exact hend hic

/-- Settles O35: a stop changes the status only; a failed fetch follows a completed instruction, which was at 99 since
no branch of a well-formed word goes to 100. -/
theorem haltingIsPrecise : Obligations.HaltingIsPrecise := by
  intro s t r hinv hp hs h ht
  rcases halted_cases hinv hp hs h ht with ⟨-, rfl⟩ | ⟨rfl, i, u, hd, hx, hic, rfl⟩
  · exact .inl rfl
  · have hoperand := Invariant.operand_bounds hinv.2.1 hd
    have hs99 : s.ic = 99 := by rcases hx.ic_cases with h | ⟨h, -⟩ <;> omega
    have hu : ({ u.haltWith .boundsViolation with status := .running } : State) = u := by
      rw [State.haltWith, ← hs, ← hx.status_eq]
    exact .inr ⟨rfl, hs99, hic, i, hd, hu ▸ hx.exec_eq⟩

end Sys2Proof.Proofs.Halting
end

section
/-! What a step does not depend on: `Out`, and the values in `In` behind the next one. -/

namespace Sys2Proof.Proofs.Noninterference

open Sys2Proof Sys2Proof.Machine StepOutcome

/-! ## Another `Out` -/

theorem fetch_withOutput (u : State) (o : List (Int × Word)) :
    ({ u with output := o } : State).fetch = { u.fetch with output := o } := by
  rcases fetch_cases u with ⟨w, hread, hf⟩ | ⟨hbad, hf⟩ <;> rw [hf]
  · exact fetch_of_read (s := { u with output := o }) hread
  · exact fetch_of_bad (s := { u with output := o }) hbad

theorem stopsFor_withOutput {s : State} {r : HaltReason} (why : StopsFor s r) (o : List (Int × Word)) :
    StopsFor { s with output := o } r := by
  cases r <;> exact why

/-- With another `Out` an instruction completes alike, and appends the same pairs. -/
theorem completes_withOutput {i : Instr} {s u : State} (hx : Completes i s u) (o : List (Int × Word)) :
    ∃ p, p.length ≤ 1 ∧ u.output = s.output ++ p ∧
      Completes i { s with output := o } { u with output := o ++ p } := by
  have silent {u : State} (hu : u.output = s.output)
      (h : Completes i { s with output := o } { u with output := o }) :
      ∃ p, p.length ≤ 1 ∧ u.output = s.output ++ p ∧
        Completes i { s with output := o } { u with output := o ++ p } :=
    ⟨[], Nat.zero_le 1, by rw [hu, List.append_nil], by rwa [List.append_nil]⟩
  cases hx with
  | writes v hc hread => exact ⟨[(i.operand, v)], le_refl 1, rfl, .writes v hc hread⟩
  | accepts w rest m hc hin hm => exact silent rfl (.accepts w rest m hc hin hm)
  | stores m hc hm => exact silent rfl (.stores m hc hm)
  | computes op b r hop hread hr => exact silent rfl (.computes op b r hop hread hr)
  | jumps hc => exact silent rfl (.jumps hc)
  | fallsThrough hc => exact silent rfl (.fallsThrough hc)

theorem stepped_withOutput {s t : State} (h : Stepped s t) (o : List (Int × Word)) :
    ∃ p, p.length ≤ 1 ∧ t.output = s.output ++ p ∧
      Stepped { s with output := o } { t with output := o ++ p } := by
  cases h with
  | stops r why =>
    exact ⟨[], Nat.zero_le 1, (List.append_nil _).symm,
      by rw [List.append_nil]; exact .stops r (stopsFor_withOutput why o)⟩
  | holds hc hb hin =>
    exact ⟨[], Nat.zero_le 1, (List.append_nil _).symm, by rw [List.append_nil]; exact .holds hc hb hin⟩
  | fetches i u hd hx =>
    obtain ⟨p, hlen, hout, hx'⟩ := completes_withOutput hx o
    refine ⟨p, hlen, ?_, ?_⟩
    · rw [fetch_output, hout]
    · rw [← fetch_withOutput]
      exact .fetches i _ hd hx'

/-- Settles O37: in the Load phase nothing happens, and every case of a step in the Exec phase reads no `Out`. -/
theorem outputNeverFeedsBack : Obligations.OutputNeverFeedsBack := by
  intro s t o h
  rcases step_next h with ⟨hs, hp, rfl⟩ | ⟨hs, hp, -⟩
  · exact ⟨[], Nat.zero_le 1, (List.append_nil _).symm, by rw [List.append_nil]; exact step_load hp hs⟩
  · obtain ⟨p, hlen, hout, hstep⟩ := stepped_withOutput (stepped_of_step hp hs h) o
    exact ⟨p, hlen, hout, (step_eq_next_iff (s := { s with output := o }) hp hs).mpr hstep⟩

/-! ## More values behind `In` -/

/-- The state with more values offered behind those of `In`. -/
def behind (more : List Int) (s : State) : State := { s with input := s.input ++ more }

theorem fetch_behind (u : State) (more : List Int) : (behind more u).fetch = behind more u.fetch := by
  rcases fetch_cases u with ⟨w, hread, hf⟩ | ⟨hbad, hf⟩ <;> rw [hf]
  · exact fetch_of_read (s := behind more u) hread
  · exact fetch_of_bad (s := behind more u) hbad

theorem stopsFor_behind {s : State} {r : HaltReason} (why : StopsFor s r) (more : List Int) :
    StopsFor (behind more s) r := by
  cases r <;> exact why

theorem completes_behind {i : Instr} {s u : State} (hx : Completes i s u) (more : List Int) :
    Completes i (behind more s) (behind more u) := by
  cases hx with
  | accepts w rest m hc hin hm => exact .accepts w (rest ++ more) m hc (by simp [behind, hin]) hm
  | writes v hc hread => exact .writes v hc hread
  | stores m hc hm => exact .stores m hc hm
  | computes op b r hop hread hr => exact .computes op b r hop hread hr
  | jumps hc => exact .jumps hc
  | fallsThrough hc => exact .fallsThrough hc

theorem stepped_behind {s t : State} (hin : s.input ≠ [] ∨ s.opc.val ≠ 10) (h : Stepped s t) (more : List Int) :
    Stepped (behind more s) (behind more t) := by
  cases h with
  | stops r why => exact .stops r (stopsFor_behind why more)
  | holds hc hb hno =>
    obtain ⟨v, rest, hinput⟩ := List.exists_cons_of_ne_nil (hin.resolve_right (fun h => h hc))
    have hinput' : (behind more s).input = v :: (rest ++ more) := by simp [behind, hinput]
    have hno' : NoWordOffered (behind more s) := by simpa [NoWordOffered, hinput, hinput'] using hno
    have hstep := Stepped.holds (s := behind more s) hc hb hno'
    rw [dropInput_of_cons hinput'] at hstep
    rw [dropInput_of_cons hinput]
    exact hstep
  | fetches i u hd hx =>
    rw [← fetch_behind]
    exact .fetches i _ hd (completes_behind hx more)

/-- Settles O38: only a READ looks at `In`, and at its head only. -/
theorem unreadInputStaysInOrder : Obligations.UnreadInputStaysInOrder := by
  intro s t more hin h
  rcases step_next h with ⟨hs, hp, rfl⟩ | ⟨hs, hp, -⟩
  · exact step_load (s := behind more t) hp hs
  · exact (step_eq_next_iff (s := behind more s) hp hs).mpr (stepped_behind hin (stepped_of_step hp hs h) more)

end Sys2Proof.Proofs.Noninterference
end

section
/-! The two formulations of the cycle (`40_execution_cycle.md` R106, R107). Where the one stands at `x.fetch`, about to
execute, the other stands at `x`, about to fetch; in this relation both halt in the same states. -/

namespace Sys2Proof.Proofs.FetchFirst

open Sys2Proof Sys2Proof.Machine StepOutcome

/-! ## Runs -/

theorem run_of_step {M : Host.Core} {s t : M.State} (h : M.step s = .next t) (n : Nat) :
    M.run (n + 1) s = M.run n t := by
  simp only [Host.Core.run, h]

/-- A run from a state that only faults has no step. -/
theorem eq_of_run_of_fault {M : Host.Core} {s t : M.State} {f : M.Fault} (h : M.step s = .fault f) {n : Nat}
    (hrun : M.run n s = .next t) : t = s := by
  cases n with
  | zero => exact (Host.Outcome.next.inj hrun).symm
  | succ n => simp [Host.Core.run, h] at hrun

theorem stepFetchFirst_halted {s : State} {r : HaltReason} (hs : s.status = .halted r) :
    stepFetchFirst s = .fault (.halted r) := by
  simp only [stepFetchFirst, hs]

theorem stepFetchFirst_of_fetch {x : State} (hp : x.phase = .exec) (hx : x.status = .running)
    (hf : x.fetch.status = .running) : stepFetchFirst x = executeFetched x.fetch := by
  simp only [stepFetchFirst, hx, hp, hf, if_true]

theorem stepFetchFirst_of_badFetch {x : State} (hp : x.phase = .exec) (hx : x.status = .running)
    (hf : x.fetch.status ≠ .running) : stepFetchFirst x = .next x.fetch := by
  simp only [stepFetchFirst, hx, hp, if_neg hf]

/-! ## One step of each -/

/-- A fetch after a fetch, and after values of `In` were dropped, changes nothing. -/
theorem fetch_dropInput {x : State} (hf : x.fetch.status = .running) :
    (dropInput x.fetch).fetch = dropInput x.fetch := by
  rcases fetch_cases x with ⟨w, hread, hfetch⟩ | ⟨-, hfetch⟩ <;> rw [hfetch] at hf ⊢
  · exact fetch_of_read (s := dropInput (x.latch w)) hread
  · cases hf

/-- Execute of the fetched instruction ends both machines alike, or brings the one to `u`, about to fetch, and the other
to `u.fetch`. -/
theorem step_both {s : State} (hp : s.phase = .exec) (hs : s.status = .running)
    (hdrop : (dropInput s).fetch = dropInput s) :
    ∃ u, executeFetched s = .next u ∧
      ((∃ r, u.status = .halted r ∧ step s = .next u) ∨
        (u.phase = .exec ∧ u.status = .running ∧ step s = .next u.fetch)) := by
  unfold executeFetched
  cases hd : decodeFields s.opc.val s.opd.val with
  | error e =>
    exact ⟨_, rfl, .inl ⟨.invalidOpcode, rfl, step_of_stopsFor hp hs (decodeFields_eq_error.mp hd).2⟩⟩
  | ok i =>
    obtain ⟨u, hx⟩ := exec_total i s
    refine ⟨u, hx, ?_⟩
    rcases exec_outcome hd hx with ⟨r, why, rfl⟩ | ⟨hc, hb, hin, rfl⟩ | hcompletes
    · exact .inl ⟨r, rfl, step_of_stopsFor hp hs why⟩
    · exact .inr ⟨hp, hs, hdrop.symm ▸ step_of_holds hp hs hc hb hin⟩
    · exact .inr ⟨hcompletes.phase_eq.trans hp, hcompletes.status_eq.trans hs, step_of_completes hp hs hd hcompletes⟩

/-- One step of the machine that fetches first, from `x`, and the other machine at `x.fetch`. -/
theorem stepFetchFirst_cases {x : State} (hp : x.phase = .exec) (hx : x.status = .running) :
    (∃ r, x.fetch.status = .halted r ∧ stepFetchFirst x = .next x.fetch) ∨
      ∃ u, stepFetchFirst x = .next u ∧
        ((∃ r, u.status = .halted r ∧ step x.fetch = .next u) ∨
          (u.phase = .exec ∧ u.status = .running ∧ step x.fetch = .next u.fetch)) := by
  cases hf : x.fetch.status with
  | halted r => exact .inl ⟨r, rfl, stepFetchFirst_of_badFetch hp hx (by simp [hf])⟩
  | running =>
    rw [stepFetchFirst_of_fetch hp hx hf]
    exact .inr (step_both ((fetch_phase x).trans hp) hf (fetch_dropInput hf))

/-! ## The runs to a halted state -/

theorem run_fetchFirst_of_run {h : State} {r : HaltReason} (hh : h.status = .halted r) (n : Nat) : ∀ x : State,
    x.phase = .exec → x.status = .running → core.run n x.fetch = .next h → ∃ m, coreFetchFirst.run m x = .next h := by
  induction n with
  | zero =>
    intro x hp hx hrun
    obtain rfl : x.fetch = h := Host.Outcome.next.inj hrun
    exact ⟨1, run_of_step (M := coreFetchFirst) (stepFetchFirst_of_badFetch hp hx (by simp [hh])) 0⟩
  | succ n ih =>
    intro x hp hx hrun
    rcases stepFetchFirst_cases hp hx with ⟨r', hf, hx1⟩ | ⟨u, hx1, ⟨r', hu, hs1⟩ | ⟨hup, hur, hs1⟩⟩
    · obtain rfl := eq_of_run_of_fault (M := core) (step_halted hf) hrun
      exact ⟨1, run_of_step (M := coreFetchFirst) hx1 0⟩
    · rw [run_of_step (M := core) hs1] at hrun
      obtain rfl := eq_of_run_of_fault (M := core) (step_halted hu) hrun
      exact ⟨1, run_of_step (M := coreFetchFirst) hx1 0⟩
    · rw [run_of_step (M := core) hs1] at hrun
      obtain ⟨m, hm⟩ := ih u hup hur hrun
      exact ⟨m + 1, (run_of_step (M := coreFetchFirst) hx1 m).trans hm⟩

theorem run_of_run_fetchFirst {h : State} {r : HaltReason} (hh : h.status = .halted r) (n : Nat) : ∀ x : State,
    x.phase = .exec → x.status = .running → coreFetchFirst.run n x = .next h → ∃ m, core.run m x.fetch = .next h := by
  induction n with
  | zero =>
    intro x _ hx hrun
    obtain rfl : x = h := Host.Outcome.next.inj hrun
    cases hx.symm.trans hh
  | succ n ih =>
    intro x hp hx hrun
    rcases stepFetchFirst_cases hp hx with ⟨r', hf, hx1⟩ | ⟨u, hx1, ⟨r', hu, hs1⟩ | ⟨hup, hur, hs1⟩⟩ <;>
      rw [run_of_step (M := coreFetchFirst) hx1] at hrun
    · obtain rfl := eq_of_run_of_fault (M := coreFetchFirst) (stepFetchFirst_halted hf) hrun
      exact ⟨0, rfl⟩
    · obtain rfl := eq_of_run_of_fault (M := coreFetchFirst) (stepFetchFirst_halted hu) hrun
      exact ⟨1, run_of_step (M := core) hs1 0⟩
    · obtain ⟨m, hm⟩ := ih u hup hur hrun
      exact ⟨m + 1, (run_of_step (M := core) hs1 m).trans hm⟩

/-- Settles O39: at a boundary state a fetch changes nothing, so both machines start there in the relation. -/
theorem fetchFirstCycleHaltsAlike : Obligations.FetchFirstCycleHaltsAlike := by
  intro s h r hinv hp hs hh
  have hf := Invariant.fetch_eq_self hinv hp hs
  refine ⟨fun ⟨n, hrun⟩ => ?_, fun ⟨n, hrun⟩ => ?_⟩
  · exact run_fetchFirst_of_run hh n s hp hs (hf.symm ▸ hrun)
  · exact hf ▸ run_of_run_fetchFirst hh n s hp hs hrun

end Sys2Proof.Proofs.FetchFirst
end

section
/-! The control table of R90 (`30_encoding.md` section 5) as the frame of a step: one lemma for each thing that a row
allows or forbids. -/

namespace Sys2Proof.Proofs.ControlTable

open Sys2Proof Sys2Proof.Machine StepOutcome

/-! ## The columns of the table, by the operation code -/

/-- The row that the registers of `s` select. -/
abbrev row (s : State) : Controls := controls (decodeFields s.opc.val s.opd.val)

/-- One of the twelve operation codes selects the row of its instruction. -/
theorem row_of_mem {s : State} (h : s.opc.val ∈ [(10 : Int), 11, 20, 21, 30, 31, 32, 33, 40, 41, 42, 43]) :
    ∃ i, i.opcode = s.opc.val ∧ row s = controls (.ok i) := by
  obtain ⟨i, hd⟩ := decodes_of_mem (o := s.opd.val) h
  exact ⟨i, (decodeFields_eq_ok.mp hd).1, by rw [row, hd]⟩

theorem writesAcc_of_aluOpOf {i : Instr} {op : AluOp} (h : aluOpOf i = some op) :
    (controls (.ok i)).writesAcc = true := by
  cases i <;> cases h <;> rfl

theorem writesCell_of_opcode {i : Instr} (h : i.opcode = 10 ∨ i.opcode = 21) :
    (controls (.ok i)).writesCell = true := by
  cases i <;> simp_all [Instr.opcode, controls]

theorem requestsInput_of_opcode {i : Instr} (h : i.opcode = 10) : (controls (.ok i)).requestsInput = true := by
  cases i <;> simp_all [Instr.opcode, controls]

theorem emitsOutput_of_opcode {i : Instr} (h : i.opcode = 11) : (controls (.ok i)).emitsOutput = true := by
  cases i <;> simp_all [Instr.opcode, controls]

theorem raisesOverflow_of_opcode {i : Instr} (h : i.opcode = 30 ∨ i.opcode = 31 ∨ i.opcode = 33) :
    (controls (.ok i)).raisesOverflow = true := by
  cases i <;> simp_all [Instr.opcode, controls, Controls.alu]

theorem raisesDivideByZero_of_opcode {i : Instr} (h : i.opcode = 32) :
    (controls (.ok i)).raisesDivideByZero = true := by
  cases i <;> simp_all [Instr.opcode, controls, Controls.alu]

theorem raisesBoundsViolation_of_opcode {i : Instr} (h : i.opcode ∈ [(10 : Int), 11, 20, 21, 30, 31, 32, 33]) :
    (controls (.ok i)).raisesBoundsViolation = true := by
  cases i <;> simp_all [Instr.opcode, controls, Controls.alu]

/-- The operation codes of the rows with a given entry in the counter's column. -/
def CounterOpcode : CounterUpdate → Int → Prop
  | .hold, c => c = 43 ∨ c ∉ [(10 : Int), 11, 20, 21, 30, 31, 32, 33, 40, 41, 42, 43]
  | .plusOne, c => c ∈ [(11 : Int), 20, 21, 30, 31, 32, 33]
  | .plusOneIfAccepted, c => c = 10
  | .target, c => c = 40
  | .targetIfNegative, c => c = 41
  | .targetIfZero, c => c = 42

theorem counterOpcode_row (s : State) : CounterOpcode (row s).counter s.opc.val := by
  cases hd : decodeFields s.opc.val s.opd.val with
  | error e =>
    rw [row, hd]
    exact .inr (decodeFields_eq_error.mp hd).2
  | ok i =>
    rw [row, hd, ← (decodeFields_eq_ok.mp hd).1]
    cases i <;> simp [Instr.opcode, controls, Controls.alu, Controls.none, CounterOpcode]

theorem counterOpcode_of_counter {s : State} {k : CounterUpdate} (h : (row s).counter = k) :
    CounterOpcode k s.opc.val := h ▸ counterOpcode_row s

/-! ## The accumulator, memory and the streams -/

section
variable {s t : State} (h : Stepped s t)
include h

theorem acc_eq (hc : (row s).writesAcc = false) : t.acc = s.acc := by
  cases h with
  | stops r why => rfl
  | holds => rfl
  | fetches i u hd hx =>
    rw [row, hd] at hc
    cases hx with
    | computes op b r hop => rw [writesAcc_of_aluOpOf hop] at hc; cases hc
    | _ => rw [fetch_acc]; rfl

theorem mem_eq (hc : (row s).writesCell = false) : t.mem = s.mem := by
  cases h with
  | stops r why => rfl
  | holds => rfl
  | fetches i u hd hx =>
    rw [row, hd] at hc
    cases hx with
    | accepts w rest m hcode => rw [writesCell_of_opcode (.inl hcode)] at hc; cases hc
    | stores m hcode => rw [writesCell_of_opcode (.inr hcode)] at hc; cases hc
    | _ => rw [fetch_mem]; rfl

theorem read?_eq_of_ne {b : Int} (hb : b ≠ s.opd.val) : t.mem.read? b = s.mem.read? b := by
  cases h with
  | stops r why => rfl
  | holds => rfl
  | fetches i u hd hx =>
    rw [fetch_mem]
    rcases hx.mem_cases with hm | ⟨v, hm⟩
    · rw [hm]
    · rw [(decodeFields_eq_ok.mp hd).2] at hm
      exact Memory.read?_write?_other hm hb

theorem input_eq (hc : (row s).requestsInput = false) : t.input = s.input := by
  cases h with
  | stops r why => rfl
  | holds hcode hb =>
    obtain ⟨i, hopc, hrow⟩ := row_of_mem (s := s) (by simp [hcode])
    rw [hrow, requestsInput_of_opcode (hopc.trans hcode)] at hc
    cases hc
  | fetches i u hd hx =>
    rw [row, hd] at hc
    cases hx with
    | accepts w rest m hcode => rw [requestsInput_of_opcode hcode] at hc; cases hc
    | _ => rw [fetch_input]; rfl

theorem input_cases : t.input = s.input ∨ ∃ v, s.input = v :: t.input := by
  cases h with
  | stops r why => exact .inl rfl
  | holds =>
    cases hin : s.input with
    | nil => exact .inl (by rw [dropInput_of_nil hin, hin])
    | cons v rest => exact .inr ⟨v, by rw [dropInput_of_cons hin, State.setInput_input]⟩
  | fetches i u hd hx =>
    rw [fetch_input]
    cases hx with
    | accepts w rest m hcode hin => exact .inr ⟨w.val, hin⟩
    | _ => exact .inl rfl

theorem output_eq (hc : (row s).emitsOutput = false) : t.output = s.output := by
  cases h with
  | stops r why => rfl
  | holds => rfl
  | fetches i u hd hx =>
    rw [row, hd] at hc
    cases hx with
    | writes v hcode => rw [emitsOutput_of_opcode hcode] at hc; cases hc
    | _ => rw [fetch_output]; rfl

theorem output_cases :
    t.output = s.output ∨ ∃ v, s.mem.read? s.opd.val = some v ∧ t.output = s.output ++ [(s.opd.val, v)] := by
  cases h with
  | stops r why => exact .inl rfl
  | holds => exact .inl rfl
  | fetches i u hd hx =>
    rw [fetch_output, ← (decodeFields_eq_ok.mp hd).2]
    exact hx.output_cases

theorem phase_lc_eq : t.phase = s.phase ∧ t.lc = s.lc := by
  cases h with
  | stops r why => exact ⟨rfl, rfl⟩
  | holds => exact ⟨rfl, rfl⟩
  | fetches i u hd hx => rw [fetch_phase, fetch_lc]; exact ⟨hx.phase_eq, hx.lc_eq⟩

end

/-! ## The counter -/

/-- No branch stops: it does not check its target (`44_control.md` R163). -/
theorem opcode_of_stopsFor {s : State} {r : HaltReason} (why : StopsFor s r) :
    s.opc.val ≠ 40 ∧ s.opc.val ≠ 41 ∧ s.opc.val ≠ 42 := by
  cases r with
  | normal => have : s.opc.val = 43 := why; omega
  | invalidOpcode =>
    simp only [StopsFor, List.mem_cons, List.not_mem_nil, or_false] at why
    omega
  | overflow => obtain ⟨b, -, hover⟩ := why; omega
  | divideByZero => have := why.1; omega
  | boundsViolation =>
    have hmem := why.2
    simp only [List.mem_cons, List.not_mem_nil, or_false] at hmem
    omega

/-- Where the counter goes when the instruction completes. -/
theorem completes_ic {i : Instr} {s u : State} (hx : Completes i s u) :
    u.ic = if i.opcode = 40 ∨ (i.opcode = 41 ∧ s.acc.val < 0) ∨ (i.opcode = 42 ∧ s.acc.val = 0) then i.operand
      else s.ic + 1 := by
  cases hx with
  | jumps hc => rw [if_pos hc]; rfl
  | fallsThrough hc => rw [if_neg (by omega)]; rfl
  | computes op b r hop => rw [if_neg (by have := opcode_of_aluOpOf hop; omega)]; rfl
  | _ => rw [if_neg (by omega)]; rfl

/-- HALT and the undefined codes do not complete. -/
theorem opcode_ne_43_of_completes {i : Instr} {s u : State} (hx : Completes i s u) : i.opcode ≠ 43 := by
  cases hx with
  | computes op b r hop => have := opcode_of_aluOpOf hop; omega
  | _ => omega

section
variable {s t : State} (h : Stepped s t)
include h

theorem ic_of_hold (hc : (row s).counter = .hold) : t.ic = s.ic := by
  cases h with
  | stops r why => rfl
  | holds => rfl
  | fetches i u hd hx =>
    have hopc := (decodeFields_eq_ok.mp hd).1
    rcases (counterOpcode_of_counter hc : CounterOpcode .hold _) with h43 | hmem
    · exact absurd (hopc.trans h43) (opcode_ne_43_of_completes hx)
    · exact absurd (hopc ▸ opcode_mem i) hmem

theorem ic_of_plusOne (hc : (row s).counter = .plusOne) :
    t.ic = s.ic + 1 ∨ (t.ic = s.ic ∧ ∃ r, t.status = .halted r) := by
  have hmem : s.opc.val ∈ _ := counterOpcode_of_counter hc
  simp only [List.mem_cons, List.not_mem_nil, or_false] at hmem
  cases h with
  | stops r why => exact .inr ⟨rfl, r, rfl⟩
  | holds hcode => omega
  | fetches i u hd hx =>
    rw [← (decodeFields_eq_ok.mp hd).1] at hmem
    rw [fetch_ic, completes_ic hx, if_neg (by omega)]
    exact .inl rfl

theorem ic_of_plusOneIfAccepted (hc : (row s).counter = .plusOneIfAccepted) :
    t.ic = s.ic + 1 ∨ (t.ic = s.ic ∧ t.mem = s.mem) := by
  have hcode : s.opc.val = 10 := counterOpcode_of_counter hc
  cases h with
  | stops r why => exact .inr ⟨rfl, rfl⟩
  | holds => exact .inr ⟨rfl, rfl⟩
  | fetches i u hd hx =>
    rw [← (decodeFields_eq_ok.mp hd).1] at hcode
    rw [fetch_ic, completes_ic hx, if_neg (by omega)]
    exact .inl rfl

/-- A step of a branch completes. -/
theorem completes_of_branch (hc : s.opc.val = 40 ∨ s.opc.val = 41 ∨ s.opc.val = 42) :
    ∃ i u, i.opcode = s.opc.val ∧ i.operand = s.opd.val ∧ Completes i s u ∧ t.ic = u.ic := by
  cases h with
  | stops r why => have := opcode_of_stopsFor why; omega
  | holds hcode => omega
  | fetches i u hd hx =>
    obtain ⟨hopc, hopd⟩ := decodeFields_eq_ok.mp hd
    exact ⟨i, u, hopc, hopd, hx, fetch_ic u⟩

theorem ic_of_target (hc : (row s).counter = .target) : t.ic = s.opd.val := by
  have hcode : s.opc.val = 40 := counterOpcode_of_counter hc
  obtain ⟨i, u, hopc, hopd, hx, hic⟩ := completes_of_branch h (.inl hcode)
  rw [hic, completes_ic hx, if_pos (.inl (hopc.trans hcode)), hopd]

theorem ic_of_targetIfNegative (hc : (row s).counter = .targetIfNegative) :
    t.ic = if s.acc.val < 0 then s.opd.val else s.ic + 1 := by
  have hcode : s.opc.val = 41 := counterOpcode_of_counter hc
  obtain ⟨i, u, hopc, hopd, hx, hic⟩ := completes_of_branch h (.inr (.inl hcode))
  rw [hic, completes_ic hx, hopd, hopc, hcode]
  simp

theorem ic_of_targetIfZero (hc : (row s).counter = .targetIfZero) :
    t.ic = if s.acc.val = 0 then s.opd.val else s.ic + 1 := by
  have hcode : s.opc.val = 42 := counterOpcode_of_counter hc
  obtain ⟨i, u, hopc, hopd, hx, hic⟩ := completes_of_branch h (.inr (.inr hcode))
  rw [hic, completes_ic hx, hopd, hopc, hcode]
  simp

end

/-! ## The halt reasons -/

theorem raisesInvalidOpcode_of_stopsFor {s : State} (why : StopsFor s .invalidOpcode) :
    (row s).raisesInvalidOpcode = true := by
  rw [row, decodeFields_eq_error.mpr ⟨rfl, why⟩]
  rfl

theorem raisesOverflow_of_stopsFor {s : State} (why : StopsFor s .overflow) : (row s).raisesOverflow = true := by
  obtain ⟨b, -, hover⟩ := why
  have hcode : s.opc.val = 30 ∨ s.opc.val = 31 ∨ s.opc.val = 33 := hover.imp And.left (Or.imp And.left And.left)
  obtain ⟨i, hopc, hrow⟩ := row_of_mem (s := s) (by rcases hcode with h | h | h <;> simp [h])
  rw [hrow]
  exact raisesOverflow_of_opcode (hopc ▸ hcode)

theorem raisesDivideByZero_of_stopsFor {s : State} (why : StopsFor s .divideByZero) :
    (row s).raisesDivideByZero = true := by
  obtain ⟨i, hopc, hrow⟩ := row_of_mem (s := s) (by simp [why.1])
  rw [hrow]
  exact raisesDivideByZero_of_opcode (hopc.trans why.1)

theorem raisesBoundsViolation_of_stopsFor {s : State} (why : StopsFor s .boundsViolation) :
    (row s).raisesBoundsViolation = true := by
  have hmem : s.opc.val ∈ [(10 : Int), 11, 20, 21, 30, 31, 32, 33] := why.2
  obtain ⟨i, hopc, hrow⟩ := row_of_mem (s := s) (List.mem_append_left [40, 41, 42, 43] hmem)
  rw [hrow]
  exact raisesBoundsViolation_of_opcode (hopc ▸ hmem)

section
variable {s t : State} (h : Stepped s t) (hs : s.status = .running)
include h hs

/-- A step ends the run for a reason of its instruction, or in a fetch at a counter that is no address. -/
theorem stopsFor_of_halted {r : HaltReason} (ht : t.status = .halted r) :
    StopsFor s r ∨ (r = .boundsViolation ∧ ¬(0 ≤ t.ic ∧ t.ic ≤ 99)) := by
  cases h with
  | stops r' why => exact .inl (Status.halted.inj ht ▸ why)
  | holds => cases hs.symm.trans ht
  | fetches i u hd hx =>
    obtain ⟨hr, hbad, -⟩ := Halting.fetch_of_halts (hx.status_eq.trans hs) ht
    rw [fetch_ic]
    exact .inr ⟨hr, hbad⟩

theorem stopsFor_of_halted_of_ne {r : HaltReason} (hr : r ≠ .boundsViolation) (ht : t.status = .halted r) :
    StopsFor s r :=
  (stopsFor_of_halted h hs ht).resolve_right fun hb => hr hb.1

/-! ## The instruction registers -/

theorem registers_eq_of_halted (ht : t.status ≠ .running) : t.ir = s.ir ∧ t.opc = s.opc ∧ t.opd = s.opd := by
  cases h with
  | stops r why => exact ⟨rfl, rfl, rfl⟩
  | holds => exact ⟨rfl, rfl, rfl⟩
  | fetches i u hd hx =>
    rcases fetch_cases u with ⟨w, -, hf⟩ | ⟨-, hf⟩ <;> rw [hf] at ht ⊢
    · exact absurd (hx.status_eq.trans hs) ht
    · exact hx.registers_eq

omit hs in
theorem registers_eq_of_noWordOffered (hc : s.opc.val = 10) (hin : NoWordOffered s) :
    t.ir = s.ir ∧ t.opc = s.opc ∧ t.opd = s.opd := by
  cases h with
  | stops r why => exact ⟨rfl, rfl, rfl⟩
  | holds => exact ⟨rfl, rfl, rfl⟩
  | fetches i u hd hx =>
    have hholds : holds i s = true := holds_iff.mpr ⟨(decodeFields_eq_ok.mp hd).1.trans hc, hin⟩
    cases hholds.symm.trans hx.holds_eq_false

omit hs in
theorem registers_fetched (ht : t.status = .running) (hno : ¬(s.opc.val = 10 ∧ NoWordOffered s)) :
    t.mem.read? t.ic = some t.ir ∧ t.opc.val = tdiv t.ir.val 100 ∧ t.opd.val = tmod t.ir.val 100 := by
  cases h with
  | stops r why => cases ht
  | holds hc hb hin => exact absurd ⟨hc, hin⟩ hno
  | fetches i u hd hx =>
    rcases fetch_cases u with ⟨w, hread, hf⟩ | ⟨-, hf⟩ <;> rw [hf] at ht ⊢
    · exact ⟨hread, rfl, rfl⟩
    · cases ht

end

/-- Settles O36, clause by clause over what a step can do. -/
theorem controlTableBoundsTheStep : Obligations.ControlTableBoundsTheStep := by
  rintro s t c hp hs hstep rfl
  have h := stepped_of_step hp hs hstep
  exact ⟨acc_eq h, mem_eq h, fun _ => read?_eq_of_ne h, input_eq h, input_cases h, output_eq h, output_cases h,
    ic_of_hold h, ic_of_plusOne h, ic_of_plusOneIfAccepted h, ic_of_target h, ic_of_targetIfNegative h,
    ic_of_targetIfZero h,
    fun ht => raisesInvalidOpcode_of_stopsFor (stopsFor_of_halted_of_ne h hs (by decide) ht),
    fun ht => raisesOverflow_of_stopsFor (stopsFor_of_halted_of_ne h hs (by decide) ht),
    fun ht => raisesDivideByZero_of_stopsFor (stopsFor_of_halted_of_ne h hs (by decide) ht),
    fun ht => (stopsFor_of_halted h hs ht).imp raisesBoundsViolation_of_stopsFor And.right,
    fun ht => stopsFor_of_halted_of_ne h hs (by decide) ht,
    registers_eq_of_halted h hs, registers_eq_of_noWordOffered h, registers_fetched h, phase_lc_eq h⟩

end Sys2Proof.Proofs.ControlTable
end

section
/-! READ and WRITE (`41_io.md`): where they are encoded, what Execute does with them, and the inputs a READ rejects. -/

namespace Sys2Proof.Proofs.InputOutput

open Sys2Proof Sys2Proof.Machine StepOutcome

/-- An instruction that is no branch and no HALT checks its data address (`20_memory.md` R54). -/
theorem checksDataAddress_of_opcode {mk : Int → Instr} (ho : ∀ a, (mk a).operand = a)
    (hc : ∀ a, (mk a).opcode ≠ 40 ∧ (mk a).opcode ≠ 41 ∧ (mk a).opcode ≠ 42 ∧ (mk a).opcode ≠ 43) :
    ChecksDataAddress mk := by
  intro a s hbad
  rw [exec_of_badAddress ((ho a).symm ▸ hbad) (hc a), State.haltWith]

/-- Settles O10, by what stands at the head of `In`. -/
theorem readAcceptsRejectsOrWaits : Obligations.ReadAcceptsRejectsOrWaits := by
  refine ⟨LoadStore.encodedFrom_of_opcode (c := 10) (fun _ => rfl) (fun _ => rfl),
    checksDataAddress_of_opcode (fun _ => rfl) (fun _ => by simp [Instr.opcode]), ?_⟩
  intro a s h0 h99
  refine ⟨fun w rest hwf hin => ?_, fun v rest hv hin => ?_, fun hin => ?_⟩
  · have hwrite := s.mem.write?_of_bounds w h0 h99
    refine ⟨_, ?_, Memory.read?_write?_same hwf hwrite, fun b hb => Memory.read?_write?_other hwrite hb⟩
    rw [exec_read, execRead_accepts hin hwrite, State.advance, State.setMem, State.setInput]
  · rw [exec_read, execRead_rejects ⟨h0, h99⟩ hin hv, State.setInput]
  · rw [exec_read, execRead_waits ⟨h0, h99⟩ hin]

/-- Settles O11: at a good address the read has a value, and WRITE emits it. -/
theorem writeEmitsItsCell : Obligations.WriteEmitsItsCell := by
  refine ⟨LoadStore.encodedFrom_of_opcode (c := 11) (fun _ => rfl) (fun _ => rfl),
    checksDataAddress_of_opcode (fun _ => rfl) (fun _ => by simp [Instr.opcode]), ?_⟩
  intro a s h0 h99
  have hread := s.mem.read?_of_bounds h0 h99
  refine ⟨_, hread, ?_⟩
  rw [exec_write, withDataRead_of_read hread, State.advance, State.emit]

/-- Settles O12, by induction on the rejected values: each is one step that drops it and leaves the READ in place. -/
theorem rejectedInputsAreOnlyConsumed : Obligations.RejectedInputsAreOnlyConsumed := by
  intro bad rest
  induction bad with
  | nil =>
    intro s _ _ _ _ _ _ hin
    rw [List.nil_append] at hin
    rw [← hin]
    exact run_zero s
  | cons v bad ih =>
    intro s hp hs hc h0 h99 hbad hin
    rw [List.cons_append] at hin
    have hno : NoWordOffered s := by simpa [NoWordOffered, hin] using hbad v List.mem_cons_self
    have hstep : step s = .next (s.setInput (bad ++ rest)) := by
      rw [step_of_holds hp hs hc ⟨h0, h99⟩ hno, dropInput_of_cons hin]
    exact (run_succ hstep).trans
      (ih (s.setInput (bad ++ rest)) hp hs hc h0 h99 (fun w hw => hbad w (List.mem_cons_of_mem v hw)) rfl)

end Sys2Proof.Proofs.InputOutput
end

section
/-! The arithmetic-logic unit and the four arithmetic instructions (`43_arithmetic.md`). -/

namespace Sys2Proof.Proofs.Arithmetic

open Sys2Proof Sys2Proof.Machine StepOutcome InputOutput

/-! ## The unit -/

/-- A good quotient is the truncated one (R145, R146). -/
theorem div_eq_ok {a b r : Word} (h : alu .div a b = .ok r) : b.val ≠ 0 ∧ r.val = tdiv a.val b.val := by
  by_cases hb : b.val = 0
  · rw [alu_div_zero hb] at h
    cases h
  · rw [alu_div hb] at h
    cases h
    exact ⟨hb, rfl⟩

theorem div_eq_divideByZero {a b : Word} : alu .div a b = .divideByZero ↔ b.val = 0 := by
  refine ⟨fun h => ?_, alu_div_zero⟩
  rw [(alu_eq_divideByZero.mp h).2]
  rfl

/-- Settles O17: the three validated operations by the validator's laws, and the quotient by the library's laws of
truncating division. -/
theorem aluIsExactOrRefuses : Obligations.AluIsExactOrRefuses := by
  intro a b
  refine ⟨alu_pass a b, fun _ => validated_eq_ok, alu_eq_overflow.trans (by simp), fun _ => validated_eq_ok,
    alu_eq_overflow.trans (by simp), fun _ => validated_eq_ok, alu_eq_overflow.trans (by simp), div_eq_divideByZero,
    fun h => by simpa using alu_eq_overflow.mp h, fun r h => ?_⟩
  obtain ⟨-, hr⟩ := div_eq_ok h
  rw [hr]
  exact ⟨tdiv_eq_sign_mul a.val b.val, Int.natAbs_tdiv_le_natAbs a.val b.val, Int.tdiv_mul_cancel⟩

/-! ## The instructions -/

/-- ADD, SUBTRACT and MULTIPLY commit what the validator makes of their exact result (R141). -/
theorem overflowChecked_of_alu {mk : Int → Instr} {op : AluOp} {f : Int → Int → Int}
    (hop : ∀ a, aluOpOf (mk a) = some op) (ho : ∀ a, (mk a).operand = a)
    (halu : ∀ x y : Word, alu op x y = validated (f x.val y.val)) : OverflowChecked mk f := by
  intro a s h0 h99
  obtain ⟨b, hread⟩ : ∃ b, s.mem.read? a = some b := ⟨_, s.mem.read?_of_bounds h0 h99⟩
  have hexec := exec_of_alu (hop a) (b := b) (by rw [ho, hread])
  rw [halu] at hexec
  refine ⟨_, hread, fun r hr => ?_, fun hbad => ?_⟩
  · rw [hexec, validated_eq_ok.mpr hr, commitAlu, State.advance, State.setAcc]
  · rw [hexec, validated_eq_overflow.mpr hbad, commitAlu, State.haltWith]

/-- Settles O18: the ALU's `add` validates the sum. -/
theorem addIsOverflowChecked : Obligations.AddIsOverflowChecked :=
  ⟨LoadStore.encodedFrom_of_opcode (c := 30) (fun _ => rfl) (fun _ => rfl),
    checksDataAddress_of_opcode (fun _ => rfl) (fun _ => by simp [Instr.opcode]),
    overflowChecked_of_alu (op := .add) (fun _ => rfl) (fun _ => rfl) (fun _ _ => rfl)⟩

/-- Settles O19: the ALU's `sub` validates the difference. -/
theorem subtractIsOverflowChecked : Obligations.SubtractIsOverflowChecked :=
  ⟨LoadStore.encodedFrom_of_opcode (c := 31) (fun _ => rfl) (fun _ => rfl),
    checksDataAddress_of_opcode (fun _ => rfl) (fun _ => by simp [Instr.opcode]),
    overflowChecked_of_alu (op := .sub) (fun _ => rfl) (fun _ => rfl) (fun _ _ => rfl)⟩

/-- Settles O20: the ALU's `mul` validates the product. -/
theorem multiplyIsOverflowChecked : Obligations.MultiplyIsOverflowChecked :=
  ⟨LoadStore.encodedFrom_of_opcode (c := 33) (fun _ => rfl) (fun _ => rfl),
    checksDataAddress_of_opcode (fun _ => rfl) (fun _ => by simp [Instr.opcode]),
    overflowChecked_of_alu (op := .mul) (fun _ => rfl) (fun _ => rfl) (fun _ _ => rfl)⟩

/-- DIVIDE by a divisor that is not 0 commits the truncated quotient. -/
theorem exec_divide {a : Int} {s : State} {d : Word} (hread : s.mem.read? a = some d) (hd : d.val ≠ 0) :
    exec (.divide a) s =
      .next { s with acc := ⟨tdiv s.acc.val d.val, quotient_inRange s.acc d⟩, ic := s.ic + 1 } := by
  rw [exec_of_alu (i := .divide a) rfl hread, alu_div hd, commitAlu, State.advance, State.setAcc]

/-- Settles O21: the truncated quotient is the one of signs and magnitudes. -/
theorem divideTakesTheTruncatedQuotient : Obligations.DivideTakesTheTruncatedQuotient :=
  ⟨LoadStore.encodedFrom_of_opcode (c := 32) (fun _ => rfl) (fun _ => rfl),
    checksDataAddress_of_opcode (fun _ => rfl) (fun _ => by simp [Instr.opcode]),
    fun _ _ _ hread hd => ⟨_, tdiv_eq_sign_mul _ _, exec_divide hread hd⟩⟩

/-- Settles O22: a divisor 0 stops the instruction, and 0 has the quotient 0 by every other divisor. -/
theorem divideByZeroHalts : Obligations.DivideByZeroHalts := by
  intro a s d hread
  refine ⟨fun hd => ?_, fun hd hp hs hc ha => ?_, fun hd hacc => ?_⟩
  · rw [exec_of_alu (i := .divide a) rfl hread, alu_div_zero hd, commitAlu, State.haltWith]
  · have hzero : d = Word.zero := Word.eq_of_val hd
    exact step_of_stopsFor (r := .divideByZero) hp hs ⟨hc, ha.symm ▸ hzero ▸ hread⟩
  · have hq : (⟨tdiv s.acc.val d.val, quotient_inRange s.acc d⟩ : Word) = s.acc :=
      Word.eq_of_val (by rw [hacc]; exact Int.zero_tdiv d.val)
    rw [exec_divide hread hd, hq]

end Sys2Proof.Proofs.Arithmetic
end

section
/-! The cycle (`40_execution_cycle.md`): the fetch, when a step is enabled, what a step is made of, and two steps in a
row. -/

namespace Sys2Proof.Proofs.Cycle

open Sys2Proof Sys2Proof.Machine StepOutcome

/-! ## Stops -/

/-- Settles O27: HALT is what stops for the reason Normal. -/
theorem haltSetsOnlyTheStatus : Obligations.HaltSetsOnlyTheStatus :=
  ⟨LoadStore.encodedFrom_of_opcode (c := 43) (fun _ => rfl) (fun _ => rfl), exec_halt,
    fun _ hp hs hc => step_of_stopsFor (r := .normal) hp hs hc⟩

/-- Settles O28: an undefined operation code is what stops for the reason InvalidOpcode. -/
theorem undefinedOpcodeHalts : Obligations.UndefinedOpcodeHalts :=
  fun _ hp hs hc => step_of_stopsFor (r := .invalidOpcode) hp hs hc

/-! ## The fetch -/

/-- Settles O29: at an address the read has a value, which is latched with its fields. -/
theorem fetchLatchesTheWordAtTheCounter : Obligations.FetchLatchesTheWordAtTheCounter := by
  intro s
  refine ⟨fun h0 h99 => ?_, fun hbad => ?_⟩
  · obtain ⟨w, hread⟩ : ∃ w, s.mem.read? s.ic = some w := ⟨_, s.mem.read?_of_bounds h0 h99⟩
    rw [fetch_of_read hread]
    exact ⟨w, hread, rfl, rfl, rfl⟩
  · rw [fetch_of_bad hbad, State.haltWith]

/-! ## The step -/

/-- Settles O30: a halted Execute and a held READ are the whole step; after every other Execute comes the fetch. -/
theorem stepIsExecuteThenFetch : Obligations.StepIsExecuteThenFetch := by
  intro s hp hs
  refine ⟨fun e he => step_of_stopsFor (r := .invalidOpcode) hp hs (decodeFields_eq_error.mp he).2,
    fun i t hopc hopd hx => ?_⟩
  have hd : decodeFields s.opc.val s.opd.val = .ok i := decodeFields_eq_ok.mpr ⟨hopc, hopd⟩
  refine ⟨fun ht => step_of_exec_stops hp hs hd hx (.inl ht), fun _ hc hin => ?_, fun ht hno => ?_⟩
  · exact step_of_exec_stops hp hs hd hx (.inr (holds_iff.mpr ⟨hopc.trans hc, hin⟩))
  · have hholds : holds i s = false := by
      rw [← Bool.not_eq_true, holds_iff, hopc]
      exact hno
    exact ⟨t.fetch, fetchLatchesTheWordAtTheCounter t, Control.step_fetches hp hs hd hx ht hholds⟩

/-- At a boundary of a run the registers hold the fields of the word at the counter (`10_state.md` R31, R32). -/
theorem registers_at_counter {s : State} {w : Word} (hinv : CoreInvariant s) (hp : s.phase = .exec)
    (hs : s.status = .running) (hread : s.mem.read? s.ic = some w) :
    s.opc = opcodeField w ∧ s.opd = operandField w := by
  obtain ⟨-, hcoupled, -, -, hcoherent, -⟩ := hinv
  obtain rfl : s.ir = w := Option.some.inj ((hcoherent hp hs).symm.trans hread)
  exact Invariant.registers_of_fieldsCoupled hcoupled

/-- Settles O31: at a boundary the registers hold the word at the counter and its fields, so the dispatch selects the
instruction that the word decodes to. -/
theorem stepRunsTheInstructionAtTheCounter : Obligations.StepRunsTheInstructionAtTheCounter := by
  intro s w i hinv hp hs hread hdecode
  obtain ⟨hopc, hopd⟩ := registers_at_counter hinv hp hs hread
  have hd : decodeFields s.opc.val s.opd.val = .ok i := by rw [hopc, hopd, ← decode, hdecode]
  refine ⟨operandOk_iff.mpr (Invariant.operand_bounds hinv.2.1 hd), ?_⟩
  simp only [step_exec hp hs, stepExec, hd]

/-- Settles O32: the Load phase disables the step, and a halted machine faults. -/
theorem noStepOutsideARun : Obligations.NoStepOutsideARun :=
  fun _ => ⟨fun hs hp => step_load hp hs, fun _ hs => step_halted hs⟩

/-- Every instruction answers a next state, and so does a step of a running machine. -/
theorem step_total {s : State} (hs : s.status = .running) : ∃ t, step s = .next t := by
  cases hp : s.phase with
  | load => exact ⟨s, step_load hp hs⟩
  | exec =>
    rw [step_exec hp hs]
    cases hd : decodeFields s.opc.val s.opd.val with
    | error e => exact ⟨_, stepExec_error hd⟩
    | ok i =>
      obtain ⟨u, hu⟩ := exec_total i s
      exact ⟨_, stepExec_ok hd hu⟩

/-- Settles O33: a running machine answers a next state, and a halted one a fault. -/
theorem runningMachineAlwaysSteps : Obligations.RunningMachineAlwaysSteps := by
  refine fun s => ⟨step_total, fun r h => ?_⟩
  cases hs : s.status with
  | running =>
    obtain ⟨t, ht⟩ := step_total hs
    cases ht.symm.trans h
  | halted r' => cases (step_halted hs).symm.trans h

/-- Settles O50: the one running state of the Exec phase with no step is the READ that waits, and an offered value ends
the wait. -/
theorem stepIsEnabledExactlyWhen : Obligations.StepIsEnabledExactlyWhen := by
  intro s
  refine ⟨?_, fun h => step_total (stepEnabled_iff.mp h).2.1, step_disabled, fun r hs => ⟨?_, step_halted hs⟩,
    fun v hp hs => ?_⟩
  · rw [stepEnabled_iff, ← Bool.not_eq_true, waitsForInput_iff]
    tauto
  · rw [← Bool.not_eq_true, stepEnabled_iff, hs]
    exact fun h => nomatch h.2.1
  · rw [stepEnabled_iff, ← Bool.not_eq_true, waitsForInput_iff]
    refine ⟨hp, hs, fun ⟨_, _, _, _, hin⟩ => ?_⟩
    exact List.append_ne_nil_of_right_ne_nil s.input (List.cons_ne_nil v []) hin

/-- Settles O26: the jump goes to where the counter stands, and the fetch brings what the registers hold. -/
theorem branchToItselfChangesNothing : Obligations.BranchToItselfChangesNothing := by
  intro s hinv hp hs hc hd
  have hcompletes : Completes (.branch s.opd.val) s (s.jumpTo s.opd.val) := .jumps (.inl rfl)
  have hself : s.jumpTo s.opd.val = s := by rw [hd]; rfl
  rw [step_of_completes (i := .branch s.opd.val) hp hs (decodeFields_eq_ok.mpr ⟨hc.symm, rfl⟩) hcompletes, hself,
    Invariant.fetch_eq_self hinv hp hs]

/-! ## The steps of LOAD, STORE and READ -/

section
variable {s : State} (hp : s.phase = .exec) (hs : s.status = .running)
include hp hs

theorem step_load_completes {v : Word} (hc : s.opc.val = 20) (hread : s.mem.read? s.opd.val = some v) :
    step s = .next (s.setAcc v).advance.fetch :=
  step_of_completes (i := .load s.opd.val) hp hs (decodeFields_eq_ok.mpr ⟨hc.symm, rfl⟩)
    (.computes .pass v v rfl hread (alu_pass s.acc v))

theorem step_store_completes {m : Memory} (hc : s.opc.val = 21) (hm : s.mem.write? s.opd.val s.acc = some m) :
    step s = .next (s.setMem m).advance.fetch :=
  step_of_completes (i := .store s.opd.val) hp hs (decodeFields_eq_ok.mpr ⟨hc.symm, rfl⟩) (.stores m rfl hm)

theorem step_read_completes {w : Word} {rest : List Int} {m : Memory} (hc : s.opc.val = 10)
    (hin : s.input = w.val :: rest) (hm : s.mem.write? s.opd.val w = some m) :
    step s = .next ((s.setInput rest).setMem m).advance.fetch :=
  step_of_completes (i := .read s.opd.val) hp hs (decodeFields_eq_ok.mpr ⟨hc.symm, rfl⟩) (.accepts w rest m rfl hin hm)

end

/-- A word stored where the counter is about to stand is the one fetched (`20_memory.md` R66). -/
theorem fetch_of_written {u : State} {m m' : Memory} {w : Word} (hwf : m.wf = true)
    (hm : m.write? u.ic w = some m') (hu : u.mem = m') : u.fetch = u.latch w :=
  fetch_of_read (by rw [hu, Memory.read?_write?_same hwf hm])

/-- Settles O16: the instruction writes the cell that its own fetch then reads. -/
theorem storedWordIsFetchedNext : Obligations.StoredWordIsFetchedNext := by
  intro s hinv hp hs hnext
  obtain ⟨hwf, hcoupled, -⟩ := hinv
  have hwrite (hmem : s.opc.val ∈ [(10 : Int), 11, 20, 21, 30, 31, 32, 33, 40, 41, 42, 43]) (w : Word) :
      ∃ m, s.mem.write? s.opd.val w = some m := by
    obtain ⟨i, hd⟩ := decodes_of_mem (o := s.opd.val) hmem
    obtain ⟨h0, h99⟩ := Invariant.operand_bounds hcoupled hd
    rw [(decodeFields_eq_ok.mp hd).2] at h0 h99
    exact ⟨_, s.mem.write?_of_bounds w h0 h99⟩
  refine ⟨fun hc => ?_, fun w rest hc hin => ?_⟩
  · obtain ⟨m, hm⟩ := hwrite (by simp [hc]) s.acc
    have hstep := step_store_completes hp hs hc hm
    rw [fetch_of_written (u := (s.setMem m).advance) hwf (hnext ▸ hm) rfl] at hstep
    exact ⟨_, hstep, hs, rfl, rfl⟩
  · obtain ⟨m, hm⟩ := hwrite (by simp [hc]) w
    have hstep := step_read_completes hp hs hc hin hm
    rw [fetch_of_written (u := ((s.setInput rest).setMem m).advance) hwf (hnext ▸ hm) rfl] at hstep
    exact ⟨_, hstep, hs, rfl, rfl⟩

/-! ## The round trips of LOAD and STORE -/

/-- The fields of a word of a row of the opcode map. -/
theorem fields_of_row {w : Word} {c a : Int} (hc : 1 ≤ c) (h0 : 0 ≤ a) (h99 : a ≤ 99) (hw : w.val = 100 * c + a) :
    (opcodeField w).val = c ∧ (operandField w).val = a :=
  (fields_iff hc).mpr ⟨h0, h99, hw⟩

theorem run_two {s t u : State} (h1 : step s = .next t) (h2 : step t = .next u) : core.run 2 s = .next u := by
  rw [run_succ h1, run_succ h2, run_zero]

/-- Writing back what was read leaves every cell as it was. -/
theorem read?_write?_of_read {m m' : Memory} {a : Int} {v : Word} (hwf : m.wf = true) (hread : m.read? a = some v)
    (hm : m.write? a v = some m') (b : Int) : m'.read? b = m.read? b := by
  by_cases hb : b = a
  · rw [hb, Memory.read?_write?_same hwf hm, hread]
  · exact Memory.read?_write?_other hm hb

/-- Settles O15: in each round trip the first instruction's fetch brings the second, which uses the same cell. -/
theorem loadStoreRoundTrip : Obligations.LoadStoreRoundTrip := by
  intro s a wl ws hinv hp hs hic h0 h99 hwl hws
  have hwf := hinv.1
  obtain ⟨hcl, hal⟩ := fields_of_row (c := 20) (by decide) h0 h99 hwl
  obtain ⟨hcs, has⟩ := fields_of_row (c := 21) (by decide) h0 h99 hws
  refine ⟨fun hl hst => ?_, fun hst hl hne => ?_⟩
  · obtain ⟨hopc, hopd⟩ := registers_at_counter hinv hp hs hl
    obtain ⟨v, hread⟩ : ∃ v, s.mem.read? a = some v := ⟨_, s.mem.read?_of_bounds h0 h99⟩
    obtain ⟨m, hm⟩ : ∃ m, s.mem.write? a v = some m := ⟨_, s.mem.write?_of_bounds v h0 h99⟩
    have hstep1 := step_load_completes hp hs (by rw [hopc, hcl]) (by rw [hopd, hal, hread])
    rw [fetch_of_read (s := (s.setAcc v).advance) hst] at hstep1
    have hstep2 := step_store_completes (s := (s.setAcc v).advance.latch ws) (m := m) hp hs hcs
      (by rw [State.latch_opd, has]; exact hm)
    refine ⟨_, run_two hstep1 hstep2, fun b => ?_, ?_⟩
    · rw [fetch_mem]
      exact read?_write?_of_read hwf hread hm b
    · rw [fetch_acc]
      exact hread
  · obtain ⟨hopc, hopd⟩ := registers_at_counter hinv hp hs hst
    obtain ⟨m, hm⟩ : ∃ m, s.mem.write? a s.acc = some m := ⟨_, s.mem.write?_of_bounds s.acc h0 h99⟩
    have hread : m.read? a = some s.acc := Memory.read?_write?_same hwf hm
    have hstep1 := step_store_completes hp hs (by rw [hopc, hcs]) (by rw [hopd, has]; exact hm)
    have hl' : m.read? (s.ic + 1) = some wl := (Memory.read?_write?_other hm hne.symm).trans hl
    rw [fetch_of_read (s := (s.setMem m).advance) hl'] at hstep1
    have hstep2 := step_load_completes (s := (s.setMem m).advance.latch wl) (v := s.acc) hp hs hcl
      (by rw [State.latch_opd, hal]; exact hread)
    refine ⟨_, run_two hstep1 hstep2, ?_, ?_⟩
    · rw [fetch_acc]
      rfl
    · rw [fetch_mem]
      exact hread

end Sys2Proof.Proofs.Cycle
end

section
/-! The agents outside the core (`70_reset_and_hazards.md`) and the status port (`60_exceptions.md` R181): reset, the
loader, Start, the dumper, and that a halted machine answers to none of them but reset. -/

namespace Sys2Proof.Proofs.Environment

open Sys2Proof Sys2Proof.Machine

/-! ## Halted -/

theorem sameTuple_of_eq {s t : State} (h : t = s) : SameTuple s t := by
  subst h
  exact ⟨rfl, rfl, rfl, rfl, rfl, rfl, rfl, rfl, rfl⟩

/-- Settles O40: the loader and Start are refused outside a running machine, and an offer changes `In` only. -/
theorem haltedIsAbsorbing : Obligations.HaltedIsAbsorbing := by
  intro s r hs
  have hnoload : ¬(s.phase = .load ∧ s.status = .running) := fun h => nomatch hs.symm.trans h.2
  refine ⟨fun ⟨t, ht⟩ => (nomatch (step_halted hs).symm.trans ht), fun v => sameTuple_of_eq (loadWord_refused hnoload),
    sameTuple_of_eq (start_refused hnoload), fun v => ?_, rfl⟩
  exact ⟨rfl, rfl, rfl, rfl, rfl, rfl, rfl, rfl, rfl⟩

/-- Settles O41: the dumper's tuple, by the status. -/
theorem dumpShowsTheHaltedState : Obligations.DumpShowsTheHaltedState := by
  refine fun s => ⟨fun r hs => ?_, fun hs => ?_⟩
  · exact ⟨_, by rw [dump, hs], rfl, rfl, rfl, rfl, rfl, rfl, fun _ => rfl⟩
  · rw [dump, hs]

/-- The codes number the reasons in the order of R181, so a reason is found again from its code. -/
theorem getElem?_code (r : HaltReason) :
    [HaltReason.normal, .invalidOpcode, .overflow, .divideByZero, .boundsViolation][r.code.toNat]? = some r := by
  cases r <;> rfl

/-- Settles O42: the port by the status, and the code by the reason. -/
theorem statusPortNamesTheReason : Obligations.StatusPortNamesTheReason := by
  refine ⟨fun s => ?_, fun s r hs => ?_, fun s hs => ?_, rfl, rfl, rfl, rfl, rfl, fun r r' h => ?_, fun r => ?_⟩
  · cases hs : s.status <;> simp [haltedBit, hs]
  · rw [reasonField?, hs]
  · rw [reasonField?, hs]
  · exact Option.some.inj ((getElem?_code r).symm.trans (h ▸ getElem?_code r'))
  · cases r <;> decide

/-! ## Reset and the loader -/

/-- A memory that lists no cell reads 0 at every address (`10_state.md` R41). -/
theorem read?_empty {a : Int} (h0 : 0 ≤ a) (h99 : a ≤ 99) : (⟨[]⟩ : Memory).read? a = some Word.zero :=
  Memory.read?_of_bounds _ h0 h99

/-- Settles O43: each field of the reset tuple, and that its memory lists no cell. -/
theorem resetSetsTheWholeTuple : Obligations.ResetSetsTheWholeTuple :=
  fun s => ⟨hostReset s, rfl, fun _ => read?_empty, rfl, rfl, rfl, rfl, rfl, rfl, rfl, rfl, rfl, rfl,
    ⟨rfl, rfl, rfl, rfl, rfl, rfl, rfl, rfl, rfl⟩⟩

/-- The sentinel is Start. -/
theorem loadWord_sentinel {s : State} (h : s.phase = .load ∧ s.status = .running) :
    loadWord Config.sentinel s = start s := by
  rw [loadWord, if_pos h, if_pos rfl]

/-- A loader's word with room left, and what memory then reads. -/
theorem loadWord_of_room {s : State} {w : Word} (h : s.phase = .load ∧ s.status = .running) (hlc : s.lc ≤ 99)
    (hwf : s.mem.wf = true) :
    ∃ m, loadWord w.val s = { s with mem := m, lc := s.lc + 1 } ∧ m.wf = true ∧ m.read? s.lc = some w ∧
      ∀ b, b ≠ (s.lc : Int) → m.read? b = s.mem.read? b := by
  obtain ⟨m, hm, hstored⟩ := storeLoaded_of_room (w := w) hlc
  exact ⟨m, (loadWord_of_word h).trans hstored, Memory.wf_write? hwf hm, Memory.read?_write?_same hwf hm,
    fun b hb => Memory.read?_write?_other hm hb⟩

/-- Settles O44, by the integer offered and the room left. -/
theorem loaderWordResponses : Obligations.LoaderWordResponses := by
  refine fun s v => ⟨fun hp hs => ⟨?_, fun hne hv => loadWord_skipped hv hne, ?_, fun h1 h2 hfull => ?_⟩,
    loadWord_refused⟩
  · rintro rfl
    exact loadWord_sentinel ⟨hp, hs⟩
  · rintro w rfl hlc hwf
    obtain ⟨m, hload, -, hsame, hother⟩ := loadWord_of_room (w := w) ⟨hp, hs⟩ hlc hwf
    exact ⟨m, hload, hsame, hother⟩
  · exact (loadWord_of_word (w := ⟨v, inRange_iff.mpr ⟨h1, h2⟩⟩) ⟨hp, hs⟩).trans (storeLoaded_full hfull)

theorem start_of_load {s : State} (h : s.phase = .load ∧ s.status = .running) :
    start s = ({ s with phase := .exec } : State).fetch := if_pos h

/-- Settles O45: accepted, Start is the fetch in the Exec phase; otherwise it is refused. -/
theorem startFetchesTheFirstWord : Obligations.StartFetchesTheFirstWord := by
  refine fun s => ⟨fun hp hs => ?_, start_refused⟩
  rw [start_of_load ⟨hp, hs⟩]
  exact Cycle.fetchLatchesTheWordAtTheCounter _

/-! ## Loading a program -/

/-- The state in the Load phase after the Words `ws` have been loaded: they stand in order from address 0, every other
cell is 0, and nothing but memory and the load counter has changed since reset (R215, R219). -/
structure Loaded (inputs : List Int) (ws : List Word) (s : State) : Prop where
  loading : s.phase = .load ∧ s.status = .running
  wf : s.mem.wf = true
  cells : ∀ a : Nat, a ≤ 99 → s.mem.read? a = some (ws.getD a Word.zero)
  lc : s.lc = ws.length
  registers : s.acc = Word.zero ∧ s.ic = 0
  streams : s.input = inputs ∧ s.output = []

theorem loaded_reset (inputs : List Int) : Loaded inputs [] { State.reset with input := inputs } where
  loading := ⟨rfl, rfl⟩
  wf := reset_mem_wf
  cells a ha := read?_empty (by omega) (by omega)
  lc := rfl
  registers := ⟨rfl, rfl⟩
  streams := ⟨rfl, rfl⟩

/-- A list with one more element, read with a default. -/
theorem getD_concat {α : Type} (l : List α) (x d : α) (n : Nat) :
    (l ++ [x]).getD n d = if n = l.length then x else l.getD n d := by
  rcases lt_trichotomy n l.length with h | rfl | h
  · rw [List.getD_append _ _ _ _ h, if_neg h.ne]
  · simp
  · rw [List.getD_eq_default _ _ (by simp; omega), List.getD_eq_default _ _ h.le, if_neg h.ne']

/-- One more Word goes into the next cell. -/
theorem loaded_concat {inputs : List Int} {ws : List Word} {s : State} (h : Loaded inputs ws s) (w : Word)
    (hroom : ws.length ≤ 99) : Loaded inputs (ws ++ [w]) (loadWord w.val s) := by
  obtain ⟨hloading, hwf, hcells, hlc, hregs, hstreams⟩ := h
  obtain ⟨m, hload, hwf', hsame, hother⟩ := loadWord_of_room (w := w) hloading (hlc ▸ hroom) hwf
  rw [hload]
  refine ⟨hloading, hwf', fun a ha => ?_, by simp [hlc], hregs, hstreams⟩
  rw [getD_concat]
  split
  · next hlast => rw [hlast, ← hlc]; exact hsame
  · next hne => exact (hother a (by omega)).trans (hcells a ha)

/-- Loading goes on from where it stands: the Words offered are appended, and the other integers are skipped. -/
theorem loaded_foldl {inputs : List Int} (offered : List Int) : ∀ {ws : List Word} {s : State}, Loaded inputs ws s →
    -99999 ∉ offered → (ws ++ offered.filterMap Word.ofInt?).length ≤ 100 →
    Loaded inputs (ws ++ offered.filterMap Word.ofInt?) (offered.foldl (fun s v => loadWord v s) s) := by
  induction offered with
  | nil =>
    intro ws s h _ _
    simpa using h
  | cons v offered ih =>
    intro ws s h hsentinel hlen
    rw [List.mem_cons, not_or] at hsentinel
    rw [List.foldl_cons]
    cases hv : Word.ofInt? v with
    | none =>
      rw [List.filterMap_cons_none hv] at hlen ⊢
      rw [loadWord_skipped (ofInt?_eq_none.mp hv) (Ne.symm hsentinel.1)]
      exact ih h hsentinel.2 hlen
    | some w =>
      rw [List.filterMap_cons_some hv, List.append_cons] at hlen ⊢
      rw [← ofInt?_eq_some.mp hv]
      exact ih (loaded_concat h w (by simp only [List.length_append, List.length_singleton] at hlen; omega))
        hsentinel.2 hlen

/-- Start fetches the first Word, or 0 if none was loaded. -/
theorem start_of_loaded {inputs : List Int} {ws : List Word} {s : State} (h : Loaded inputs ws s) :
    start s = ({ s with phase := .exec } : State).latch (ws.getD 0 Word.zero) := by
  rw [start_of_load h.loading]
  refine fetch_of_read ?_
  change s.mem.read? s.ic = _
  rw [h.registers.2]
  exact h.cells 0 (by decide)

/-- Settles O46: the loading by induction on the integers offered, and then the fetch of Start at address 0. -/
theorem loadingBuildsTheLaunchState : Obligations.LoadingBuildsTheLaunchState := by
  rintro offered inputs ws hsentinel rfl hlen
  have h := loaded_foldl offered (loaded_reset inputs) hsentinel hlen
  have hlaunch : launch offered inputs = _ := start_of_loaded h
  obtain ⟨hloading, -, hcells, hlc, ⟨hacc, hic⟩, hin, hout⟩ := h
  rw [hlaunch]
  exact ⟨_, _, rfl, hcells, hcells 0 (by decide), rfl, rfl, rfl, congrArg Word.val hacc, hic, hloading.2, rfl, hlc,
    hin, hout⟩

end Sys2Proof.Proofs.Environment
end
